-- ==== Sys2Proof/Word.lean ====
section
/-! DEFINITION. The word types of the block: R6 and R7 of spec/00_scope.md fix their widths. -/

namespace Sys2Proof

/-- A byte: a general register, a memory cell, an immediate `kk` (R7). -/
abbrev Byte := BitVec 8

/-- A 16-bit word: an instruction, the program counter, `I`, a stack entry (R7). -/
abbrev Word := BitVec 16

/-- A 4-bit field: the row count `n` (R62). -/
abbrev Nibble := BitVec 4

/-- The index of a general register, a 4-bit field of the instruction word; every value is legal (R62). -/
abbrev Reg := BitVec 4

/-- A logical key, 0x0 to 0xF (R3, `NKEY` = 16). -/
abbrev Key := BitVec 4

/-- The 12-bit address field `nnn` (R62). -/
abbrev Addr12 := BitVec 12

end Sys2Proof
end

