-- ==== Sys2Proof/Config.lean ====
section
/-! DEFINITION. What the spec fixes for every machine of this kind (R3), the parameters it names (R4 and part 2 of
spec/93_implementation_defined.md), and the free values: constants with no body, of which nothing can be proved. -/

namespace Sys2Proof

/-- `MEM_SIZE` (R3): Memory is the addresses 0x000 to 0xFFF. -/
def Config.memSize : Nat := 4096

/-- `PROG_BASE` (R3): where an image is loaded, and the reset value of `PC`. -/
def Config.progBase : Nat := 0x200

/-- `PROG_MAX` (R3): the largest image, 4096 - 512 bytes. -/
def Config.progMax : Nat := 3584

/-- `TIMER_MS` (R3, and C2 of spec/90_conflicts.md): milliseconds of elapsed time per count of timer decay. -/
def Config.timerMs : Nat := 16

/-- `GLYPH_BYTES` (R3): the bytes of one glyph. -/
def Config.glyphBytes : Nat := 5

/-- `F` (R4, D1): the index of the flag register VF. PRESUMED by the spec itself (G1), unsafe: log entry 6. -/
def Config.flagReg : Reg := 15#4

/-- `SHIFT_ALIAS` (93 part 2): what 8xy6 and 8xyE do when x names VF. -/
inductive ShiftAlias where
  /-- The operand is the register as it was at the start of the instruction (D2, the default). -/
  | sampled
  /-- The second statement of the row re-reads the register the first one wrote. -/
  | sequential
  deriving DecidableEq, Repr

/-- The reading this machine has: `sampled` (D2). DESIGN CHOICE of the spec, unsafe: log entry 7. -/
def Config.shiftAlias : ShiftAlias := .sampled

/-- `FX1E_MODE` (93 part 2): what Fx1E does when the exact sum exceeds 0xFFF. -/
inductive Fx1eMode where
  /-- The fault AddrRegOverflow (R122, the default). -/
  | fault
  /-- `I <- s mod 4096`, no fault. -/
  | wrap12
  /-- `I <- s mod 65536`, no fault at Fx1E. -/
  | keep16
  deriving DecidableEq, Repr

/-- The reading this machine has: `fault` (D5). DESIGN CHOICE of the spec, safe: log entry 8. -/
def Config.fx1eMode : Fx1eMode := .fault

/-- `GLYPHS` (R18): the 80 bytes of 0x000 to 0x04F after reset, five per hexadecimal digit, top row first. The default
table of R18. PRESUMED by the spec itself (G2), unsafe for claims about drawn digits: log entry 5. -/
def Config.glyphs : List Byte :=
  [0xF0, 0x90, 0x90, 0x90, 0xF0] ++ [0x20, 0x60, 0x20, 0x20, 0x70] ++
  [0xF0, 0x10, 0xF0, 0x80, 0xF0] ++ [0xF0, 0x10, 0xF0, 0x10, 0xF0] ++
  [0x90, 0x90, 0xF0, 0x10, 0x10] ++ [0xF0, 0x80, 0xF0, 0x10, 0xF0] ++
  [0xF0, 0x80, 0xF0, 0x90, 0xF0] ++ [0xF0, 0x10, 0x20, 0x40, 0x40] ++
  [0xF0, 0x90, 0xF0, 0x90, 0xF0] ++ [0xF0, 0x90, 0xF0, 0x10, 0xF0] ++
  [0xF0, 0x90, 0xF0, 0x90, 0x90] ++ [0xE0, 0x90, 0xE0, 0x90, 0xE0] ++
  [0xF0, 0x80, 0x80, 0x80, 0xF0] ++ [0xE0, 0x90, 0x90, 0x90, 0xE0] ++
  [0xF0, 0x80, 0xF0, 0x80, 0xF0] ++ [0xF0, 0x80, 0xF0, 0x80, 0x80]

/-- `MEM_INIT` (R17, D14, U10): the byte at an address of 0x050 to 0xFFF after reset. A FREE VALUE, safe: log entry 4. -/
opaque Config.memInit : Nat → Byte

/-- The milliseconds that pass before the k-th `Step` after reset when the host's script does not say (D11, U8).
A FREE VALUE, safe: log entries 2 and 3. -/
opaque Config.freeElapsed : Nat → Nat

/-- The `key` input of the k-th `Step` after reset when the host's script does not say (R87, U13). A FREE VALUE, safe:
log entry 2. -/
opaque Config.freeKey : Nat → Option Key

/-- The `rand` input of the k-th `Step` after reset when the host's script does not say (R112, D29, U12). A FREE VALUE,
safe: log entry 2. -/
opaque Config.freeRand : Nat → Byte

end Sys2Proof
end

