-- ==== Sys2Proof/Syntax.lean ====
section
/-! DEFINITION. The instruction set: one constructor per row of spec/opcode_table.json, in the table's order (R64). -/

namespace Sys2Proof

/-- The 34 instructions of R64. A register field is 4 bits, an immediate 8, an address 12, a row count 4 (R62), so every
value of a field is one the word can hold. -/
inductive Instr where
  /-- 00E0 `CLS` -/
  | cls
  /-- 00EE `RET` -/
  | ret
  /-- 1nnn `JP nnn` -/
  | jp (nnn : Addr12)
  /-- 2nnn `CALL nnn` -/
  | call (nnn : Addr12)
  /-- 3xkk `SE Vx, kk` -/
  | seKk (x : Reg) (kk : Byte)
  /-- 4xkk `SNE Vx, kk` -/
  | sneKk (x : Reg) (kk : Byte)
  /-- 5xy0 `SE Vx, Vy` -/
  | seVy (x y : Reg)
  /-- 6xkk `LD Vx, kk` -/
  | ldKk (x : Reg) (kk : Byte)
  /-- 7xkk `ADD Vx, kk` -/
  | addKk (x : Reg) (kk : Byte)
  /-- 8xy0 `LD Vx, Vy` -/
  | ldVy (x y : Reg)
  /-- 8xy1 `OR Vx, Vy` -/
  | orVy (x y : Reg)
  /-- 8xy2 `AND Vx, Vy` -/
  | andVy (x y : Reg)
  /-- 8xy3 `XOR Vx, Vy` -/
  | xorVy (x y : Reg)
  /-- 8xy4 `ADD Vx, Vy` -/
  | addVy (x y : Reg)
  /-- 8xy5 `SUB Vx, Vy` -/
  | sub (x y : Reg)
  /-- 8xy6 `SHR Vx`; y is decoded and not used (R67) -/
  | shr (x y : Reg)
  /-- 8xy7 `SUBN Vx, Vy` -/
  | subn (x y : Reg)
  /-- 8xyE `SHL Vx`; y is decoded and not used (R67) -/
  | shl (x y : Reg)
  /-- 9xy0 `SNE Vx, Vy` -/
  | sneVy (x y : Reg)
  /-- Annn `LD I, nnn` -/
  | ldI (nnn : Addr12)
  /-- Bnnn `JP V0, nnn` -/
  | jpV0 (nnn : Addr12)
  /-- Cxkk `RND Vx, kk` -/
  | rnd (x : Reg) (kk : Byte)
  /-- Dxyn `DRW Vx, Vy, n` -/
  | drw (x y : Reg) (n : Nibble)
  /-- Ex9E `SKP Vx` -/
  | skp (x : Reg)
  /-- ExA1 `SKNP Vx` -/
  | sknp (x : Reg)
  /-- Fx07 `LD Vx, DT` -/
  | ldVxDt (x : Reg)
  /-- Fx0A `LD Vx, K` -/
  | ldVxK (x : Reg)
  /-- Fx15 `LD DT, Vx` -/
  | ldDtVx (x : Reg)
  /-- Fx18 `LD ST, Vx` -/
  | ldStVx (x : Reg)
  /-- Fx1E `ADD I, Vx` -/
  | addI (x : Reg)
  /-- Fx29 `LD F, Vx` -/
  | ldF (x : Reg)
  /-- Fx33 `LD B, Vx` -/
  | ldB (x : Reg)
  /-- Fx55 `LD [I], Vx` -/
  | stRegs (x : Reg)
  /-- Fx65 `LD Vx, [I]` -/
  | ldRegs (x : Reg)
  deriving DecidableEq, Repr

end Sys2Proof
end

