-- ==== Sys2Proof/WellFormed.lean ====
section
/-! DEFINITION. The formats and the opcode map of spec/30_encoding.md (R61, R64), and the check that an instruction's
operands stand beside the bits its format fixes. -/

namespace Sys2Proof

/-- The six formats of R61. -/
inductive Format where
  | op | nnn | xkk | xy | xyn | x
  deriving DecidableEq, Repr

/-- R61, column "fixed bits (mask)": the bits of the word that must match. -/
def Format.mask : Format → Word
  | .op => 0xFFFF
  | .nnn => 0xF000
  | .xkk => 0xF000
  | .xy => 0xF00F
  | .xyn => 0xF000
  | .x => 0xF0FF

/-- Do these operand bits leave every fixed bit of the format alone? -/
def Format.operandsFit (f : Format) (bits : Word) : Bool := bits &&& f.mask == 0

/-- R64, column "format". -/
def Instr.format : Instr → Format
  | .cls | .ret => .op
  | .jp _ | .call _ | .ldI _ | .jpV0 _ => .nnn
  | .seKk _ _ | .sneKk _ _ | .ldKk _ _ | .addKk _ _ | .rnd _ _ => .xkk
  | .seVy _ _ | .ldVy _ _ | .orVy _ _ | .andVy _ _ | .xorVy _ _ | .addVy _ _ | .sub _ _ | .shr _ _ | .subn _ _
  | .shl _ _ | .sneVy _ _ => .xy
  | .drw _ _ _ => .xyn
  | .skp _ | .sknp _ | .ldVxDt _ | .ldVxK _ | .ldDtVx _ | .ldStVx _ | .addI _ | .ldF _ | .ldB _ | .stRegs _
  | .ldRegs _ => .x

/-- R64, column "match": the values of the fixed bits. -/
def Instr.pattern : Instr → Word
  | .cls => 0x00E0
  | .ret => 0x00EE
  | .jp _ => 0x1000
  | .call _ => 0x2000
  | .seKk _ _ => 0x3000
  | .sneKk _ _ => 0x4000
  | .seVy _ _ => 0x5000
  | .ldKk _ _ => 0x6000
  | .addKk _ _ => 0x7000
  | .ldVy _ _ => 0x8000
  | .orVy _ _ => 0x8001
  | .andVy _ _ => 0x8002
  | .xorVy _ _ => 0x8003
  | .addVy _ _ => 0x8004
  | .sub _ _ => 0x8005
  | .shr _ _ => 0x8006
  | .subn _ _ => 0x8007
  | .shl _ _ => 0x800E
  | .sneVy _ _ => 0x9000
  | .ldI _ => 0xA000
  | .jpV0 _ => 0xB000
  | .rnd _ _ => 0xC000
  | .drw _ _ _ => 0xD000
  | .skp _ => 0xE09E
  | .sknp _ => 0xE0A1
  | .ldVxDt _ => 0xF007
  | .ldVxK _ => 0xF00A
  | .ldDtVx _ => 0xF015
  | .ldStVx _ => 0xF018
  | .addI _ => 0xF01E
  | .ldF _ => 0xF029
  | .ldB _ => 0xF033
  | .stRegs _ => 0xF055
  | .ldRegs _ => 0xF065

/-- R64, column "mask". -/
def Instr.mask (i : Instr) : Word := i.format.mask

/-- The operand fields of R6, each shifted to its place in the word. -/
def Instr.operandBits : Instr → Word
  | .cls | .ret => 0
  | .jp nnn | .call nnn | .ldI nnn | .jpV0 nnn => nnn.zeroExtend 16
  | .seKk x kk | .sneKk x kk | .ldKk x kk | .addKk x kk | .rnd x kk =>
    (x.zeroExtend 16 <<< 8) ||| kk.zeroExtend 16
  | .seVy x y | .ldVy x y | .orVy x y | .andVy x y | .xorVy x y | .addVy x y | .sub x y | .shr x y | .subn x y
  | .shl x y | .sneVy x y => (x.zeroExtend 16 <<< 8) ||| (y.zeroExtend 16 <<< 4)
  | .drw x y n => (x.zeroExtend 16 <<< 8) ||| (y.zeroExtend 16 <<< 4) ||| n.zeroExtend 16
  | .skp x | .sknp x | .ldVxDt x | .ldVxK x | .ldDtVx x | .ldStVx x | .addI x | .ldF x | .ldB x | .stRegs x
  | .ldRegs x => x.zeroExtend 16 <<< 8

/-- An instruction is well formed when its operands fit its format beside the fixed bits. Because every field has the
width the word gives it (R62), every instruction is; `Sys2Proof.Laws.OperandsFit` says so constructor by constructor. -/
def Instr.wellFormed (i : Instr) : Bool := i.format.operandsFit i.operandBits

end Sys2Proof
end

