-- ==== Sys2Proof/Decode.lean ====
section
/-! DEFINITION. The decoder of spec/30_encoding.md (R63), total on any bytes and rejecting by name, and after it the
encoder, written from the same formats (R61). -/

namespace Sys2Proof

/-- Why bytes are no instruction. -/
inductive DecodeError where
  /-- The word matches none of the 34 patterns (R65). -/
  | unrecognized (w : Word)
  /-- Fewer than the two bytes every instruction has (R60). -/
  | truncated
  deriving DecidableEq, Repr

/-- The opcode class c = w[15:12] (R6). -/
def fieldC (w : Word) : BitVec 4 := w.extractLsb' 12 4

/-- The field x = w[11:8] (R6). -/
def fieldX (w : Word) : Reg := w.extractLsb' 8 4

/-- The field y = w[7:4] (R6). -/
def fieldY (w : Word) : Reg := w.extractLsb' 4 4

/-- The field n = w[3:0] (R6). -/
def fieldN (w : Word) : Nibble := w.extractLsb' 0 4

/-- The field kk = w[7:0] (R6). -/
def fieldKk (w : Word) : Byte := w.extractLsb' 0 8

/-- The field nnn = w[11:0] (R6). -/
def fieldNnn (w : Word) : Addr12 := w.extractLsb' 0 12

/-- Class 0 of R63: the two words that match on all 16 bits. -/
def decode0 (w : Word) : Except DecodeError Instr :=
  if w = 0x00E0 then .ok .cls
  else if w = 0x00EE then .ok .ret
  else .error (.unrecognized w)

/-- Class 5 of R63: the low nibble must be 0. -/
def decode5 (w : Word) : Except DecodeError Instr :=
  if fieldN w = 0x0 then .ok (.seVy (fieldX w) (fieldY w)) else .error (.unrecognized w)

/-- Class 8 of R63, by the low nibble. -/
def decode8 (w : Word) : Except DecodeError Instr :=
  if fieldN w = 0x0 then .ok (.ldVy (fieldX w) (fieldY w))
  else if fieldN w = 0x1 then .ok (.orVy (fieldX w) (fieldY w))
  else if fieldN w = 0x2 then .ok (.andVy (fieldX w) (fieldY w))
  else if fieldN w = 0x3 then .ok (.xorVy (fieldX w) (fieldY w))
  else if fieldN w = 0x4 then .ok (.addVy (fieldX w) (fieldY w))
  else if fieldN w = 0x5 then .ok (.sub (fieldX w) (fieldY w))
  else if fieldN w = 0x6 then .ok (.shr (fieldX w) (fieldY w))
  else if fieldN w = 0x7 then .ok (.subn (fieldX w) (fieldY w))
  else if fieldN w = 0xE then .ok (.shl (fieldX w) (fieldY w))
  else .error (.unrecognized w)

/-- Class 9 of R63: the low nibble must be 0. -/
def decode9 (w : Word) : Except DecodeError Instr :=
  if fieldN w = 0x0 then .ok (.sneVy (fieldX w) (fieldY w)) else .error (.unrecognized w)

/-- Class E of R63, by the low byte. -/
def decodeE (w : Word) : Except DecodeError Instr :=
  if fieldKk w = 0x9E then .ok (.skp (fieldX w))
  else if fieldKk w = 0xA1 then .ok (.sknp (fieldX w))
  else .error (.unrecognized w)

/-- Class F of R63, by the low byte. -/
def decodeF (w : Word) : Except DecodeError Instr :=
  if fieldKk w = 0x07 then .ok (.ldVxDt (fieldX w))
  else if fieldKk w = 0x0A then .ok (.ldVxK (fieldX w))
  else if fieldKk w = 0x15 then .ok (.ldDtVx (fieldX w))
  else if fieldKk w = 0x18 then .ok (.ldStVx (fieldX w))
  else if fieldKk w = 0x1E then .ok (.addI (fieldX w))
  else if fieldKk w = 0x29 then .ok (.ldF (fieldX w))
  else if fieldKk w = 0x33 then .ok (.ldB (fieldX w))
  else if fieldKk w = 0x55 then .ok (.stRegs (fieldX w))
  else if fieldKk w = 0x65 then .ok (.ldRegs (fieldX w))
  else .error (.unrecognized w)

/-- R63: `decode(w)`, by the class and then the sub-field the dispatch table names; every fixed nibble must match (D8). -/
def decodeWord (w : Word) : Except DecodeError Instr :=
  if fieldC w = 0x0 then decode0 w
  else if fieldC w = 0x1 then .ok (.jp (fieldNnn w))
  else if fieldC w = 0x2 then .ok (.call (fieldNnn w))
  else if fieldC w = 0x3 then .ok (.seKk (fieldX w) (fieldKk w))
  else if fieldC w = 0x4 then .ok (.sneKk (fieldX w) (fieldKk w))
  else if fieldC w = 0x5 then decode5 w
  else if fieldC w = 0x6 then .ok (.ldKk (fieldX w) (fieldKk w))
  else if fieldC w = 0x7 then .ok (.addKk (fieldX w) (fieldKk w))
  else if fieldC w = 0x8 then decode8 w
  else if fieldC w = 0x9 then decode9 w
  else if fieldC w = 0xA then .ok (.ldI (fieldNnn w))
  else if fieldC w = 0xB then .ok (.jpV0 (fieldNnn w))
  else if fieldC w = 0xC then .ok (.rnd (fieldX w) (fieldKk w))
  else if fieldC w = 0xD then .ok (.drw (fieldX w) (fieldY w) (fieldN w))
  else if fieldC w = 0xE then decodeE w
  else decodeF w

/-- The word of two consecutive bytes, the first high-order (R42). -/
def wordOfBytes (hi lo : Byte) : Word := hi ++ lo

/-- The two bytes of a word as they lie in Memory, the high-order one first (R42). -/
def bytesOfWord (w : Word) : List Byte := [w.extractLsb' 8 8, w.extractLsb' 0 8]

/-- Decode the first instruction of a list of bytes and give the bytes after it; every instruction is two (R60). -/
def decode : List Byte → Except DecodeError (Instr × List Byte)
  | hi :: lo :: rest =>
    match decodeWord (wordOfBytes hi lo) with
    | .ok i => .ok (i, rest)
    | .error e => .error e
  | _ => .error .truncated

/-- Format NNN of R61: class and 12-bit address. -/
def wordNnn (c : BitVec 4) (nnn : Addr12) : Word := c ++ nnn

/-- Format XKK of R61: class, register, immediate. -/
def wordXkk (c : BitVec 4) (x : Reg) (kk : Byte) : Word := c ++ x ++ kk

/-- Formats XY and XYN of R61: class, two registers, low nibble. -/
def wordXyn (c : BitVec 4) (x y : Reg) (n : Nibble) : Word := c ++ x ++ y ++ n

/-- The encoder: the word of an instruction, by the formats of R61 and the patterns of R64. -/
def encode : Instr → Word
  | .cls => 0x00E0
  | .ret => 0x00EE
  | .jp nnn => wordNnn 0x1 nnn
  | .call nnn => wordNnn 0x2 nnn
  | .seKk x kk => wordXkk 0x3 x kk
  | .sneKk x kk => wordXkk 0x4 x kk
  | .seVy x y => wordXyn 0x5 x y 0x0
  | .ldKk x kk => wordXkk 0x6 x kk
  | .addKk x kk => wordXkk 0x7 x kk
  | .ldVy x y => wordXyn 0x8 x y 0x0
  | .orVy x y => wordXyn 0x8 x y 0x1
  | .andVy x y => wordXyn 0x8 x y 0x2
  | .xorVy x y => wordXyn 0x8 x y 0x3
  | .addVy x y => wordXyn 0x8 x y 0x4
  | .sub x y => wordXyn 0x8 x y 0x5
  | .shr x y => wordXyn 0x8 x y 0x6
  | .subn x y => wordXyn 0x8 x y 0x7
  | .shl x y => wordXyn 0x8 x y 0xE
  | .sneVy x y => wordXyn 0x9 x y 0x0
  | .ldI nnn => wordNnn 0xA nnn
  | .jpV0 nnn => wordNnn 0xB nnn
  | .rnd x kk => wordXkk 0xC x kk
  | .drw x y n => wordXyn 0xD x y n
  | .skp x => wordXkk 0xE x 0x9E
  | .sknp x => wordXkk 0xE x 0xA1
  | .ldVxDt x => wordXkk 0xF x 0x07
  | .ldVxK x => wordXkk 0xF x 0x0A
  | .ldDtVx x => wordXkk 0xF x 0x15
  | .ldStVx x => wordXkk 0xF x 0x18
  | .addI x => wordXkk 0xF x 0x1E
  | .ldF x => wordXkk 0xF x 0x29
  | .ldB x => wordXkk 0xF x 0x33
  | .stRegs x => wordXkk 0xF x 0x55
  | .ldRegs x => wordXkk 0xF x 0x65

/-- The bytes of an instruction as they lie in Memory (R42). -/
def encodeBytes (i : Instr) : List Byte := bytesOfWord (encode i)

/-- The one word that `nbits` bits of the opcode table hold: bit 0 of `w` is the least significant bit of the word. -/
def tableWord (nbits w : Nat) : Word := BitVec.ofNat 16 (w % 2 ^ nbits)

/-- What the decoder reads from an instruction whose bits are `w`, numbered as spec/opcode_table.json numbers them. -/
def decodeTableWord (nbits w : Nat) : Option Instr :=
  match decode (bytesOfWord (tableWord nbits w)) with
  | .ok (i, _) => some i
  | .error _ => none

end Sys2Proof
end

