-- ==== Sys2Proof/Machine/State.lean ====
section
/-! DEFINITION. The state of spec/10_state.md (the list of R26), the inputs of a step beside it, the reasons a run can
stop, and the state after reset (R180). -/

namespace Sys2Proof.Machine

/-- Memory as a list of (address, byte), in the canonical form `Memory.wf` of Machine/Ops.lean. An address that is not
listed still holds its reset content. -/
abbrev Memory := List Host.Cell

/-- The frame buffer (R20): row py, top to bottom, and in it bit px, left to right. -/
abbrev FrameBuffer := Vector (BitVec 64) 32

/-- The execution mode (R19). -/
inductive Mode where
  | running
  | awaitingKey
  deriving DecidableEq, Repr

/-- A timer latch (R21, R22): the set-value and the set-instant in milliseconds. -/
structure TimerLatch where
  value   : Byte
  instant : Nat
  deriving DecidableEq, Repr

/-- The causes of a fatal error (R151). -/
inductive Cause where
  | stackOverflow
  | stackUnderflow
  | memOutOfRange
  | fetchOutOfRange
  | addrRegOverflow
  deriving DecidableEq, Repr

/-- What the `FAULT` latch records (R23): the cause, the address of the instruction (for a fetch fault, `PC`), and its
word (absent for a fetch fault). -/
structure FaultRecord where
  cause : Cause
  addr  : Word
  word  : Option Word
  deriving DecidableEq, Repr

/-- What the host supplies for one `Step` (R5): the milliseconds that have passed since the last one, so that the `now`
inputs never decrease (R148(g)), the latched key, and the random byte. Log entries 1 and 3. -/
structure HostInput where
  elapsed : Nat
  key     : Option Key
  rand    : Byte
  deriving DecidableEq, Repr

/-- The host's side of the interface (R5), no state of the block (R25): the instant of the last `Step`, the number of
`Step`s taken, the inputs already supplied for the coming ones (oldest first; past them the inputs are free values), and
whether `Load` has been done. Log entries 1, 2, 14 and 17. -/
structure Env where
  clock  : Nat
  tick   : Nat
  script : List HostInput
  loaded : Bool
  deriving DecidableEq, Repr

/-- The whole state: the list of R26, and `env`, the host's side. -/
structure State where
  /-- `V[0]` to `V[15]` (R10) -/
  v     : Vector Byte 16
  /-- `PC` (R13) -/
  pc    : Word
  /-- `I` (R14) -/
  i     : Word
  /-- `STACK[0..15]` (R15) -/
  stack : Vector Word 16
  /-- `SP`, 0 to 16 (R15) -/
  sp    : Fin 17
  /-- `MEM` (R17) -/
  mem   : Memory
  /-- `MODE` (R19) -/
  mode  : Mode
  /-- `FB` (R20) -/
  fb    : FrameBuffer
  /-- `DTV`, `DTI` (R21) -/
  dt    : TimerLatch
  /-- `STV`, `STI` (R22) -/
  st    : TimerLatch
  /-- `FAULT` (R23) -/
  fault : Option FaultRecord
  /-- `DIAG` (R24) -/
  diag  : List (Word × Word)
  /-- the host's side (R5) -/
  env   : Env
  deriving DecidableEq, Repr

/-- Why a host operation stops with a fault. No instruction and no step ends in one: `Step` is total (R80), and a fatal
error of the block is a next state whose `FAULT` latch is set (R150). Log entry 9. -/
inductive Fault where
  /-- Raised by `load` alone, for an image of more than 3584 bytes: "an error (bounds violation)", and the run does not
  start (R186, R159). Safe: no state follows. Log entry 14. -/
  | imageTooLarge
  deriving DecidableEq, Repr

/-- Why an operation has no meaning. No instruction that has its meaning ends in one. -/
inductive Refusal where
  /-- Raised by an arm of `exec` whose instruction has no meaning yet. Safe. -/
  | notModelled (mnemonic : String)
  /-- Raised by `load` when an image has been loaded already: `Load` is "allowed once" (R5, R186). Safe. Log entry 14. -/
  | loadedAlready
  /-- Raised by `load` after the first `Step`: the host never writes Memory during a run (R5, R172). Safe. Log entry 14. -/
  | loadAfterFirstStep
  /-- Raised by `stepWith` when `now` is before that of an earlier `Step`: the host's duty is broken and the run has no
  meaning (R148(g), 93 U8). Safe. Log entry 3. -/
  | nowDecreases
  /-- Raised by `sound` for an instant before the last step's `now`, where the spec offers no reading (R149).
  DESIGN CHOICE, safe. Log entry 20. -/
  | soundBeforeLastStep
  /-- Raised by `getPoint` for a point outside the 64 by 32 grid, which has no defined result (R135, U7). Safe.
  Log entry 16. -/
  | pointOutOfBounds
  deriving DecidableEq, Repr

/-- What an instruction or a step answers. -/
abbrev Result := Host.Outcome State Fault Refusal

/-- The state after `Reset` (R26, R180). Memory lists nothing: every address holds its reset content. The set-instants,
which the spec leaves unspecified, are 0 (DESIGN CHOICE, unsafe: log entry 10), and the host's side is at its start
(DESIGN CHOICE: log entry 17). -/
def State.reset : State where
  v     := Vector.replicate 16 0
  pc    := 0x200
  i     := 0
  stack := Vector.replicate 16 0
  sp    := 0
  mem   := []
  mode  := .running
  fb    := Vector.replicate 32 0
  dt    := { value := 0, instant := 0 }
  st    := { value := 0, instant := 0 }
  fault := none
  diag  := []
  env   := { clock := 0, tick := 0, script := [], loaded := false }

end Sys2Proof.Machine
end

