-- ==== Sys2Proof/Machine/Ops.lean ====
section
/-! DEFINITION. The named operations on memory, registers, the stack and the program counter, the inputs of a step, and
taking a fault or a diagnostic. Everything an instruction does goes through them. -/

namespace Sys2Proof.Machine

/-! Memory -/

/-- The byte the spec gives an address at reset: the glyph table at 0x000 to 0x04F (R18), nothing elsewhere (R17). -/
def Memory.resetByte? (a : Nat) : Option Byte := Config.glyphs[a]?

/-- What an unlisted address reads as: its reset content, the glyph byte or the free `MEM_INIT` (R17). Log entry 4. -/
def Memory.unlisted (a : Nat) : Byte := (Memory.resetByte? a).getD (Config.memInit a)

/-- Read one byte. -/
def Memory.read : Memory → Nat → Byte
  | [], a => Memory.unlisted a
  | (k, b) :: m, a => if k = a then b else Memory.read m a

/-- Take an address off the list. -/
def Memory.erase : Memory → Nat → Memory
  | [], _ => []
  | (k, b) :: m, a => if k = a then Memory.erase m a else (k, b) :: Memory.erase m a

/-- List an address with a byte, at its place in the rising order. -/
def Memory.insert : Memory → Nat → Byte → Memory
  | [], a, b => [(a, b)]
  | (k, c) :: m, a, b =>
    if a < k then (a, b) :: (k, c) :: m
    else if a = k then (a, b) :: m
    else (k, c) :: Memory.insert m a b

/-- Write one byte, keeping the canonical form: the byte the spec gives the address at reset is not listed. -/
def Memory.write (m : Memory) (a : Nat) (b : Byte) : Memory :=
  if Memory.resetByte? a = some b then Memory.erase m a else Memory.insert m a b

/-- The bytes at a, a+1, ..., a+n-1 (R8, `MemRead`). -/
def Memory.readBytes (m : Memory) (a n : Nat) : List Byte := (List.range n).map fun k => Memory.read m (a + k)

/-- Write a list of bytes to a, a+1, ... in ascending order (R8, `MemWrite`; R43). -/
def Memory.writeBytes : Memory → Nat → List Byte → Memory
  | m, _, [] => m
  | m, a, b :: bs => Memory.writeBytes (Memory.write m a b) (a + 1) bs

/-- The canonical form, from an address on: addresses rise strictly and name a byte of Memory (R40), and no entry holds
what the spec gives its address at reset. -/
def Memory.risingFrom : Nat → Memory → Bool
  | _, [] => true
  | lo, (a, b) :: m =>
    decide (lo ≤ a) && decide (a < Config.memSize) && decide (Memory.resetByte? a ≠ some b) && Memory.risingFrom (a + 1) m

/-- The canonical form of a memory: equal memories are equal lists. -/
def Memory.wf (m : Memory) : Bool := Memory.risingFrom 0 m

/-- The bounds check of R46: a data access of n bytes at a base address stays within 0x000 to 0xFFF; no bytes always do. -/
def inRange (base : Word) (n : Nat) : Bool := decide (n = 0) || decide (base.toNat + n ≤ Config.memSize)

/-- Replace Memory. -/
def State.setMem (s : State) (m : Memory) : State := { s with mem := m }

/-- `MemRead(base, n)` with its bounds check (R8, R46): none when the access would raise MemOutOfRange. -/
def memRead (s : State) (base : Word) (n : Nat) : Option (List Byte) :=
  if inRange base n then some (s.mem.readBytes base.toNat n) else none

/-- `MemWrite(base, n, v)` with its bounds check (R8, R46): none, and nothing written, when it would raise
MemOutOfRange. -/
def memWrite (s : State) (base : Word) (bs : List Byte) : Option State :=
  if inRange base bs.length then some (s.setMem (s.mem.writeBytes base.toNat bs)) else none

/-! General registers -/

/-- Read `V[x]` (R10). -/
def State.reg (s : State) (x : Reg) : Byte := s.v[x.toNat]'x.isLt

/-- Write `V[x]` (R10): no register is hard-wired. -/
def State.setReg (s : State) (x : Reg) (b : Byte) : State := { s with v := s.v.set x.toNat b x.isLt }

/-- `V[0]`, ..., `V[x]`, in that order (R125). -/
def State.regsUpTo (s : State) (x : Reg) : List Byte := s.v.toList.take (x.toNat + 1)

/-- Write a list of bytes to `V[k]`, `V[k+1]`, ... (R126). -/
def State.setRegsFrom : State → Nat → List Byte → State
  | s, _, [] => s
  | s, k, b :: bs => State.setRegsFrom (s.setReg (BitVec.ofNat 4 k) b) (k + 1) bs

/-! Address register and program counter -/

/-- Write `I` (R14). -/
def State.setI (s : State) (a : Word) : State := { s with i := a }

/-- `PC <- PC + 2`, on 16 bits (R82): what the fetch does, and what a taken skip does again (R90(a)). -/
def State.advance (s : State) : State := { s with pc := s.pc + 2 }

/-- `PC <- PC - 2` (R142): back to the instruction's own address. -/
def State.rewind (s : State) : State := { s with pc := s.pc - 2 }

/-- `PC <- target` (R8). -/
def State.jump (s : State) (target : Word) : State := { s with pc := target }

/-- `if c: PC <- PCn + 2` (R90(a)). -/
def State.skipIf (s : State) (c : Bool) : State := if c then s.advance else s

/-! Mode, frame buffer, timers -/

/-- Write `MODE` (R19). -/
def State.setMode (s : State) (m : Mode) : State := { s with mode := m }

/-- Write `FB` (R20). -/
def State.setFb (s : State) (f : FrameBuffer) : State := { s with fb := f }

/-- Write `DTV` and `DTI` (R147). -/
def State.setDelay (s : State) (l : TimerLatch) : State := { s with dt := l }

/-- Write `STV` and `STI` (R147). -/
def State.setSound (s : State) (l : TimerLatch) : State := { s with st := l }

/-! Call stack -/

/-- Write `STACK[k]` (R15). -/
def State.setEntry (s : State) (k : Fin 16) (a : Word) : State := { s with stack := s.stack.set k.val a k.isLt }

/-- Write `SP` (R15). -/
def State.setSp (s : State) (n : Fin 17) : State := { s with sp := n }

/-- `push(v)` (R16): none when SP = 16. -/
def push (s : State) (a : Word) : Option State :=
  if h : s.sp.val < 16 then some ((s.setEntry ⟨s.sp.val, h⟩ a).setSp ⟨s.sp.val + 1, by omega⟩) else none

/-- `pop()` (R16): the entry and the state after it, none when SP = 0. -/
def pop (s : State) : Option (Word × State) :=
  if h : 0 < s.sp.val then
    some (s.stack[s.sp.val - 1]'(by omega), s.setSp ⟨s.sp.val - 1, by omega⟩)
  else none

/-! The inputs of a step -/

/-- The input of the coming `Step`: the host's script, and past its end the free values at the current tick (R87). -/
def State.input (s : State) : HostInput :=
  match s.env.script with
  | i :: _ => i
  | [] =>
    { elapsed := Config.freeElapsed s.env.tick, key := Config.freeKey s.env.tick, rand := Config.freeRand s.env.tick }

/-- The `now` input of the step (R5): never before the last one (R148(g)). -/
def State.now (s : State) : Nat := s.env.clock + s.input.elapsed

/-- The `key` input of the step (R5). -/
def State.key (s : State) : Option Key := s.input.key

/-- The `rand` input of the step (R5). -/
def State.rand (s : State) : Byte := s.input.rand

/-- The host's side moves on by one `Step`. -/
def State.endStep (s : State) : State :=
  { s with env := { s.env with clock := s.now, tick := s.env.tick + 1, script := s.env.script.tail } }

/-- The same for what an instruction answers. -/
def endStepOf : Result → Result
  | .next s => .next s.endStep
  | .fault r => .fault r
  | .refused r => .refused r

/-- The host supplies the inputs of the coming steps (R5). -/
def State.supply (s : State) (inputs : List HostInput) : State := { s with env := { s.env with script := inputs } }

/-! Fetch -/

/-- The fetch (R81): the word at `PC`, first byte high-order (R42), at any parity (R44); none when `PC` > 0xFFE (R47). -/
def fetch (s : State) : Option Word :=
  if s.pc.toNat ≤ 0xFFE then some (wordOfBytes (s.mem.read s.pc.toNat) (s.mem.read (s.pc.toNat + 1))) else none

/-! Taking a fault, and the diagnostic -/

/-- The code of a cause (R151). -/
def Cause.code : Cause → Nat
  | .stackOverflow => 1
  | .stackUnderflow => 2
  | .memOutOfRange => 3
  | .fetchOutOfRange => 4
  | .addrRegOverflow => 5

/-- Set the `FAULT` latch (R150): the block is halted from then on (R86). -/
def State.latchFault (s : State) (r : FaultRecord) : State := { s with fault := some r }

/-- TAKING A FAULT (R86, R150): `raise <Cause>` of the instruction w whose `PC` has been advanced. The advance is undone,
so that everything is as before the step, and the latch records the cause, the instruction's address and its word.
There is no handler, nothing else is saved (R162), and no return (R163): only `Reset` clears the latch. -/
def raise (c : Cause) (w : Word) (s : State) : Result :=
  .next (s.rewind.latchFault { cause := c, addr := s.pc - 2, word := some w })

/-- Taking the fetch fault (R155): nothing changes but the latch, which records `PC` and no word. -/
def raiseFetch (s : State) : Result := .next (s.latchFault { cause := .fetchOutOfRange, addr := s.pc, word := none })

/-- `diag(a, w)` (R156): report an unrecognized word. -/
def State.diagnose (s : State) (a w : Word) : State := { s with diag := s.diag ++ [(a, w)] }

end Sys2Proof.Machine
end

