-- ==== Sys2Proof/Machine/Flags.lean ====
section
/-! DEFINITION. The flag computations (R100, R113) and the order of the two writes of an instruction that sets VF (R85). -/

namespace Sys2Proof.Machine

/-- A flag as the byte VF holds (R12): 1 or 0. -/
def flagByte (b : Bool) : Byte := if b then 1 else 0

/-- Write the flag register VF (R12). -/
def State.setFlag (s : State) (b : Bool) : State := s.setReg Config.flagReg (flagByte b)

/-- Carry out of an 8-bit addition: the exact sum is at least 256 (R100, R107). -/
def carryOut (a b : Byte) : Bool := decide (256 ≤ a.toNat + b.toNat)

/-- No borrow in a - b: the minuend is at least the subtrahend (R100, R108). -/
def noBorrow (a b : Byte) : Bool := decide (b.toNat ≤ a.toNat)

/-- The bit a right shift drops (R109). -/
def lowBit (a : Byte) : Bool := a.getLsbD 0

/-- The bit a left shift drops (R111). -/
def highBit (a : Byte) : Bool := a.getLsbD 7

/-- The write order of 8xy4, 8xy5 and 8xy7 (R85): the result, then the flag, which stands when x names VF. -/
def State.setResultThenFlag (s : State) (x : Reg) (result : Byte) (flag : Bool) : State :=
  (s.setReg x result).setFlag flag

/-- The write order of 8xy6 and 8xyE (R85): the flag, then the result, which stands when x names VF. With `sampled` the
result is computed from the register as it was; with `sequential` from the register the flag was just written to
(SHIFT_ALIAS, 93 part 2). The two differ only when x names VF. -/
def State.setFlagThenResult (s : State) (m : ShiftAlias) (x : Reg) (flag : Byte → Bool) (op : Byte → Byte) : State :=
  let s1 := s.setFlag (flag (s.reg x))
  s1.setReg x (op (match m with | .sampled => s.reg x | .sequential => s1.reg x))

end Sys2Proof.Machine
end

