-- ==== Sys2Proof/Machine/Operands.lean ====
section
/-! DEFINITION. The operand forms: the 12-bit address zero-extended (R62), the sums the addresses come from (R98, R122,
R123), the key comparison (R140), the decimal digits (R124) and the timer's effective value (R146). -/

namespace Sys2Proof.Machine

/-- `zext_16(nnn)` (R62). -/
def extAddr (nnn : Addr12) : Word := nnn.zeroExtend 16

/-- `zext_16` of a register (R98, R122). -/
def extByte (b : Byte) : Word := b.zeroExtend 16

/-- The target of Bnnn (R98): a 16-bit sum, not reduced to 12 bits. -/
def jumpOffset (nnn : Addr12) (b : Byte) : Word := extAddr nnn + extByte b

/-- Fx1E's new `I` (R122): the exact sum, and when it exceeds 0xFFF what `FX1E_MODE` says (93 part 2); none is the fault. -/
def addIndex (m : Fx1eMode) (i : Word) (b : Byte) : Option Word :=
  let sum := i.toNat + b.toNat
  if sum ≤ 0xFFF then some (BitVec.ofNat 16 sum)
  else match m with
    | .fault => none
    | .wrap12 => some (BitVec.ofNat 16 (sum % 4096))
    | .keep16 => some (BitVec.ofNat 16 sum)

/-- The address of the glyph of a digit (R123): the whole byte times 5, at most 0x4FB. -/
def glyphAddr (b : Byte) : Word := BitVec.ofNat 16 (b.toNat * Config.glyphBytes)

/-- The decimal digits of a byte, hundreds first (R124). -/
def bcdDigits (b : Byte) : List Byte :=
  [BitVec.ofNat 8 (b.toNat / 100), BitVec.ofNat 8 (b.toNat / 10 % 10), BitVec.ofNat 8 (b.toNat % 10)]

/-- Does the latched key equal a register (R140)? The 4-bit key, zero-extended, against all 8 bits; no key equals nothing. -/
def keyIs (key : Option Key) (b : Byte) : Bool :=
  match key with
  | none => false
  | some k => k.zeroExtend 8 == b

/-- `eff(v, t0, now)` (R146): `max(0, v - (now - t0) div 16)`. The spec gives it for `t0 <= now`, which every reachable
state keeps (R148(g), log entry 3). -/
def eff (t : TimerLatch) (now : Nat) : Byte :=
  BitVec.ofNat 8 (t.value.toNat - (now - t.instant) / Config.timerMs)

/-- Setting a timer (R147): both the value and the instant. -/
def setTimer (b : Byte) (now : Nat) : TimerLatch := { value := b, instant := now }

end Sys2Proof.Machine
end

