-- ==== Sys2Proof/Machine/AddressMemory.lean ====
section
/-! DEFINITION. The address register, loads and stores (spec/43_address_memory.md). One addressing mode, `I` plus a
constant; `I` itself is never moved by a load or store (R120). -/

namespace Sys2Proof.Machine

/-- R121: Annn, load address register. -/
def execLdI (nnn : Addr12) (s : State) : Result := .next (s.setI (extAddr nnn))

/-- R122: Fx1E, add register to address register; no flag; AddrRegOverflow past 0xFFF. -/
def execAddI (x : Reg) (s : State) : Result :=
  match addIndex Config.fx1eMode s.i (s.reg x) with
  | none => raise .addrRegOverflow (encode (.addI x)) s
  | some a => .next (s.setI a)

/-- R123: Fx29, address of the glyph of a digit. -/
def execLdF (x : Reg) (s : State) : Result := .next (s.setI (glyphAddr (s.reg x)))

/-- R124: Fx33, store the three decimal digits. -/
def execLdB (x : Reg) (s : State) : Result :=
  match memWrite s s.i (bcdDigits (s.reg x)) with
  | none => raise .memOutOfRange (encode (.ldB x)) s
  | some t => .next t

/-- R125: Fx55, store `V[0]` to `V[x]`. -/
def execStRegs (x : Reg) (s : State) : Result :=
  match memWrite s s.i (s.regsUpTo x) with
  | none => raise .memOutOfRange (encode (.stRegs x)) s
  | some t => .next t

/-- R126: Fx65, load `V[0]` to `V[x]`. -/
def execLdRegs (x : Reg) (s : State) : Result :=
  match memRead s s.i (x.toNat + 1) with
  | none => raise .memOutOfRange (encode (.ldRegs x)) s
  | some bs => .next (s.setRegsFrom 0 bs)

end Sys2Proof.Machine
end

