-- ==== Sys2Proof/Machine/Alu.lean ====
section
/-! DEFINITION. Register load, arithmetic, logic, shift and random (spec/42_alu.md). All arithmetic wraps modulo 256
(R100); none of these faults. -/

namespace Sys2Proof.Machine

/-- R101: 6xkk, load immediate. -/
def execLdKk (x : Reg) (kk : Byte) (s : State) : Result := .next (s.setReg x kk)

/-- R102: 7xkk, add immediate, no flag. -/
def execAddKk (x : Reg) (kk : Byte) (s : State) : Result := .next (s.setReg x (s.reg x + kk))

/-- R103: 8xy0, copy register. -/
def execLdVy (x y : Reg) (s : State) : Result := .next (s.setReg x (s.reg y))

/-- R104: 8xy1, bitwise OR, no flag. -/
def execOr (x y : Reg) (s : State) : Result := .next (s.setReg x (s.reg x ||| s.reg y))

/-- R105: 8xy2, bitwise AND, no flag. -/
def execAnd (x y : Reg) (s : State) : Result := .next (s.setReg x (s.reg x &&& s.reg y))

/-- R106: 8xy3, bitwise exclusive OR, no flag. -/
def execXor (x y : Reg) (s : State) : Result := .next (s.setReg x (s.reg x ^^^ s.reg y))

/-- R107: 8xy4, add; VF is the carry. -/
def execAddVy (x y : Reg) (s : State) : Result :=
  .next (s.setResultThenFlag x (s.reg x + s.reg y) (carryOut (s.reg x) (s.reg y)))

/-- R108: 8xy5, subtract; VF is 1 when no borrow occurs. -/
def execSub (x y : Reg) (s : State) : Result :=
  .next (s.setResultThenFlag x (s.reg x - s.reg y) (noBorrow (s.reg x) (s.reg y)))

/-- R109: 8xy6, shift right one; VF is the bit shifted out; the y field is not used (R67). -/
def execShr (x _y : Reg) (s : State) : Result :=
  .next (s.setFlagThenResult Config.shiftAlias x lowBit fun b => b >>> 1)

/-- R110: 8xy7, reverse subtract; VF is 1 when no borrow occurs. -/
def execSubn (x y : Reg) (s : State) : Result :=
  .next (s.setResultThenFlag x (s.reg y - s.reg x) (noBorrow (s.reg y) (s.reg x)))

/-- R111: 8xyE, shift left one; VF is the bit shifted out; the y field is not used (R67). -/
def execShl (x _y : Reg) (s : State) : Result :=
  .next (s.setFlagThenResult Config.shiftAlias x highBit fun b => b <<< 1)

/-- R112: Cxkk, the step's random byte under the mask kk. -/
def execRnd (x : Reg) (kk : Byte) (s : State) : Result := .next (s.setReg x (s.rand &&& kk))

end Sys2Proof.Machine
end

