-- ==== Sys2Proof/Machine/ControlFlow.lean ====
section
/-! DEFINITION. Control transfer (spec/41_control_flow.md). While an instruction executes, `PC` holds PCn = a + 2 (R82). -/

namespace Sys2Proof.Machine

/-- R91: 00EE, return from subroutine. -/
def execRet (s : State) : Result :=
  match pop s with
  | none => raise .stackUnderflow (encode .ret) s
  | some (target, t) => .next (t.jump target)

/-- R92: 1nnn, absolute jump. -/
def execJp (nnn : Addr12) (s : State) : Result := .next (s.jump (extAddr nnn))

/-- R93: 2nnn, call subroutine; the pushed address is the advanced `PC`. -/
def execCall (nnn : Addr12) (s : State) : Result :=
  match push s s.pc with
  | none => raise .stackOverflow (encode (.call nnn)) s
  | some t => .next (t.jump (extAddr nnn))

/-- R94: 3xkk, skip if equal to immediate. -/
def execSeKk (x : Reg) (kk : Byte) (s : State) : Result := .next (s.skipIf (s.reg x == kk))

/-- R95: 4xkk, skip if not equal to immediate. -/
def execSneKk (x : Reg) (kk : Byte) (s : State) : Result := .next (s.skipIf (s.reg x != kk))

/-- R96: 5xy0, skip if registers equal. -/
def execSeVy (x y : Reg) (s : State) : Result := .next (s.skipIf (s.reg x == s.reg y))

/-- R97: 9xy0, skip if registers differ. -/
def execSneVy (x y : Reg) (s : State) : Result := .next (s.skipIf (s.reg x != s.reg y))

/-- R98: Bnnn, jump with offset `V[0]`. -/
def execJpV0 (nnn : Addr12) (s : State) : Result := .next (s.jump (jumpOffset nnn (s.reg 0)))

end Sys2Proof.Machine
end

