-- ==== Sys2Proof/Machine/Display.lean ====
section
/-! DEFINITION. The frame buffer's operations and the two instructions that write it (spec/44_display.md). -/

namespace Sys2Proof.Machine

/-- `FB[px, py]` (R20): is the pixel on? -/
def FrameBuffer.pixel (f : FrameBuffer) (px : Fin 64) (py : Fin 32) : Bool := f[py].getLsbD px.val

/-- `FB[px, py] <- FB[px, py] ^ 1` (R133). -/
def FrameBuffer.flip (f : FrameBuffer) (px : Fin 64) (py : Fin 32) : FrameBuffer :=
  f.set py.val (f[py] ^^^ BitVec.twoPow 64 px.val) py.isLt

/-- The column a sprite bit falls on (R133): wrapped per pixel. -/
def pixelX (x col : Nat) : Fin 64 := ⟨(x + col) % 64, Nat.mod_lt _ (by decide)⟩

/-- The row a sprite row falls on (R133): wrapped per pixel. -/
def pixelY (y r : Nat) : Fin 32 := ⟨(y + r) % 32, Nat.mod_lt _ (by decide)⟩

/-- The sprite bit of a column: column 0 is bit 7, the leftmost pixel (R133). -/
def spriteBit (row : Byte) (col : Nat) : Bool := row.getLsbD (7 - col)

/-- `clear()` (R130). -/
def clearFb : FrameBuffer := Vector.replicate 32 0

/-- One sprite bit (R133): a 1 inverts its pixel, and collides if the pixel was on; a 0 does nothing. -/
def drawBit (x : Nat) (py : Fin 32) (row : Byte) (d : FrameBuffer × Bool) (col : Nat) : FrameBuffer × Bool :=
  if spriteBit row col then
    (FrameBuffer.flip d.1 (pixelX x col) py, d.2 || FrameBuffer.pixel d.1 (pixelX x col) py)
  else d

/-- One sprite row (R133), columns 0 to 7. -/
def drawRow (x : Nat) (py : Fin 32) (row : Byte) (d : FrameBuffer × Bool) : FrameBuffer × Bool :=
  (List.range 8).foldl (drawBit x py row) d

/-- The sprite rows from row r on (R133). -/
def drawFrom (x y : Nat) : Nat → List Byte → FrameBuffer × Bool → FrameBuffer × Bool
  | _, [], d => d
  | r, row :: rows, d => drawFrom x y (r + 1) rows (drawRow x (pixelY y r) row d)

/-- `draw(x, y, rows)` (R133): the new frame buffer and the collision flag, which is sticky for the whole call. -/
def draw (f : FrameBuffer) (x y : Nat) (rows : List Byte) : FrameBuffer × Bool := drawFrom x y 0 rows (f, false)

/-- R131: 00E0, clear the frame buffer; VF is not written. -/
def execCls (s : State) : Result := .next (s.setFb clearFb)

/-- R132: Dxyn, draw an n-row sprite from `I` at (Vx, Vy); VF is the collision. -/
def execDrw (x y : Reg) (n : Nibble) (s : State) : Result :=
  match memRead s s.i n.toNat with
  | none => raise .memOutOfRange (encode (.drw x y n)) s
  | some rows =>
    let d := draw s.fb (s.reg x).toNat (s.reg y).toNat rows
    .next ((s.setFb d.1).setFlag d.2)

end Sys2Proof.Machine
end

