-- ==== Sys2Proof/Machine/KeysTimers.lean ====
section
/-! DEFINITION. Key and timer instructions (spec/45_keys_timers.md). The `key` and `now` they read are the step's inputs
(R87). -/

namespace Sys2Proof.Machine

/-- R140: Ex9E, skip if the latched key equals Vx. -/
def execSkp (x : Reg) (s : State) : Result := .next (s.skipIf (keyIs s.key (s.reg x)))

/-- R141: ExA1, skip if the latched key does not equal Vx. -/
def execSknp (x : Reg) (s : State) : Result := .next (s.skipIf (!keyIs s.key (s.reg x)))

/-- What Fx0A leaves (R142): without a key `PC` back on the instruction and the mode AwaitingKey, with one Vx the key and
the mode Running. -/
def awaitKey (x : Reg) (s : State) : State :=
  match s.key with
  | none => s.rewind.setMode .awaitingKey
  | some k => (s.setReg x (k.zeroExtend 8)).setMode .running

/-- R142: Fx0A, blocking key read. -/
def execLdVxK (x : Reg) (s : State) : Result := .next (awaitKey x s)

/-- R143: Fx07, read the delay timer at the step's `now`. -/
def execLdVxDt (x : Reg) (s : State) : Result := .next (s.setReg x (eff s.dt s.now))

/-- R144: Fx15, set the delay timer. -/
def execLdDtVx (x : Reg) (s : State) : Result := .next (s.setDelay (setTimer (s.reg x) s.now))

/-- R145: Fx18, set the sound timer. -/
def execLdStVx (x : Reg) (s : State) : Result := .next (s.setSound (setTimer (s.reg x) s.now))

end Sys2Proof.Machine
end

