-- ==== Sys2Proof/Machine/Step.lean ====
section
/-! DEFINITION. One `Step` (R80): halt check, fetch, advance, decode, dispatch. -/

namespace Sys2Proof.Machine

/-- `Step` (R80), with the inputs of `State.input`. A halted block does not change at all (R86). A word outside the 34
patterns is reported and passed over (R156). A step that is not halted ends with the host's side moved on (`endStepOf`). -/
def step (s : State) : Host.Outcome State Fault Refusal :=
  match s.fault with
  | some _ => .next s
  | none =>
    match fetch s with
    | none => endStepOf (raiseFetch s)
    | some w =>
      match decodeWord w with
      | .error _ => endStepOf (.next (s.advance.diagnose s.pc w))
      | .ok i => endStepOf (exec i s.advance)

/-- `s` with the instruction of `nbits` bits `w` stored where `step` fetches its next one: two bytes at `PC` (R81). Log
entry 15. Where `PC` is past 0xFFE no byte is there to be fetched, and nothing changes. -/
def State.withFetchWord (s : State) (nbits w : Nat) : State :=
  if s.pc.toNat ≤ 0xFFE then
    s.setMem (s.mem.writeBytes s.pc.toNat (bytesOfWord (tableWord nbits w)))
  else s

end Sys2Proof.Machine
end

