-- ==== Sys2Proof/Machine/HostPort.lean ====
section
/-! DEFINITION. The host's operations and read ports (R5): `Load`, `Step` with its inputs, `getPoint`, `SOUND`. `Reset`
is `State.reset`. -/

namespace Sys2Proof.Machine

/-- The host's side records that `Load` has been done. -/
def State.markLoaded (s : State) : State := { s with env := { s.env with loaded := true } }

/-- `Load(image)` (R186): the image verbatim from 0x200 up, at most 3584 bytes, once, before the first `Step` (R5).
Log entry 14. -/
def load (image : List Byte) (s : State) : Result :=
  if s.env.loaded then .refused .loadedAlready
  else if s.env.tick ≠ 0 then .refused .loadAfterFirstStep
  else if Config.progMax < image.length then .fault .imageTooLarge
  else .next (s.setMem (s.mem.writeBytes Config.progBase image)).markLoaded

/-- `Step(now, key, rand)` of R5: the step with the inputs the host supplies for it. A `now` before an earlier one breaks
the host's duty and has no meaning (R148(g), 93 U8): log entry 3. A halted block takes nothing of the inputs (R80 line 1):
log entry 13. -/
def stepWith (now : Nat) (key : Option Key) (rand : Byte) (s : State) : Result :=
  if now < s.env.clock then .refused .nowDecreases
  else if s.fault.isSome then .next s
  else step (s.supply [{ elapsed := now - s.env.clock, key := key, rand := rand }])

/-- `getPoint(x, y)` (R135): whether the pixel is on; a point out of bounds has no defined result. Log entry 16. -/
def getPoint (s : State) (x y : Nat) : Host.Outcome Bool Fault Refusal :=
  if h : x < 64 ∧ y < 32 then .next (FrameBuffer.pixel s.fb ⟨x, h.1⟩ ⟨y, h.2⟩) else .refused .pointOutOfBounds

/-- `SOUND(t)` (R149): the effective sound-timer value at an instant not before the last step's `now`. For an earlier
instant the spec offers no reading: the refusal is the model's choice. DESIGN CHOICE, safe: log entry 20. -/
def sound (s : State) (t : Nat) : Host.Outcome Byte Fault Refusal :=
  if t < s.env.clock then .refused .soundBeforeLastStep else .next (eff s.st t)

end Sys2Proof.Machine
end

