-- ==== Sys2Proof/Safety.lean ====
section
/-! DEFINITION. What counts as a safe run, and the invariant of the reachable states. -/

namespace Sys2Proof.Machine

/-- No fatal error has happened (R150): a faulted state is never a successful end. -/
def State.NoFault (s : State) : Prop := s.fault = none

/-- No unrecognized word has been executed (R156, U4): what the hard policy demands of a program. -/
def State.Clean (s : State) : Prop := s.diag = []

/-- The block can take an instruction: not halted (R86), and `PC` inside the fetch's range (R47). -/
def State.CanFetch (s : State) : Prop := s.fault = none ∧ s.pc.toNat ≤ 0xFFE

/-- The invariant of the reachable states: what the spec says no run from reset leaves. -/
structure State.Inv (s : State) : Prop where
  /-- Memory keeps its canonical form; every listed address is one of the 4096. -/
  memory : s.mem.wf = true
  /-- `PC` is at most 0x10FE (R84). -/
  pcRange : s.pc.toNat ≤ 0x10FE
  /-- `I` is at most 0xFFF (R14, R157). -/
  iRange : s.i.toNat ≤ 0xFFF
  /-- A live stack entry is at most 0x1000 (R84). -/
  stackRange : ∀ k : Fin 16, k.val < s.sp.val → (s.stack[k]).toNat ≤ 0x1000
  /-- No timer was set after the last step's `now` (R148(g)). -/
  delaySet : s.dt.instant ≤ s.env.clock
  soundSet : s.st.instant ≤ s.env.clock
  /-- A fault is precise (R86, R162): its address is `PC`, and its word, absent only for a fetch fault, the word there. -/
  faultPrecise : ∀ r, s.fault = some r →
    r.addr = s.pc ∧ (r.word = none ↔ r.cause = .fetchOutOfRange) ∧ r.word = fetch s
  /-- Every diagnostic names a fetchable address and a word outside the 34 patterns (R156). -/
  diagnostics : ∀ e ∈ s.diag, e.1.toNat ≤ 0xFFE ∧ decodeWord e.2 = .error (.unrecognized e.2)
  /-- In AwaitingKey `PC` stands on an Fx0A (R19), and the block is not halted. -/
  awaiting : s.mode = .awaitingKey →
    s.fault = none ∧ ∃ w x, fetch s = some w ∧ decodeWord w = .ok (.ldVxK x)

end Sys2Proof.Machine
end

