-- ==== Sys2Proof/Certificates/Slice0/Obligations.lean ====
section
/-! DEFINITION. The statements for the provers: each `def Obligations.<Name> : Prop` says what its name says, about every
state unless it names a premise. Before them, in `Sys2Proof.Claims`, the terms they are written in, taken from the tables
of the spec and not from the meanings. -/

namespace Sys2Proof.Claims

open Sys2Proof.Machine

/-- The pieces of the state beside `PC` (R26). -/
inductive Part where
  | regs | index | stack | memory | mode | screen | delay | sound | fault | diag | env
  deriving DecidableEq, Repr

/-- The piece is the same after as before; memory byte by byte, the screen pixel by pixel. -/
def Part.Same : Part → State → State → Prop
  | .regs, s, t => ∀ r, t.reg r = s.reg r
  | .index, s, t => t.i = s.i
  | .stack, s, t => t.sp = s.sp ∧ ∀ k : Fin 16, t.stack[k] = s.stack[k]
  | .memory, s, t => ∀ a, t.mem.read a = s.mem.read a
  | .mode, s, t => t.mode = s.mode
  | .screen, s, t => ∀ px py, FrameBuffer.pixel t.fb px py = FrameBuffer.pixel s.fb px py
  | .delay, s, t => t.dt = s.dt
  | .sound, s, t => t.st = s.st
  | .fault, s, t => t.fault = s.fault
  | .diag, s, t => t.diag = s.diag
  | .env, s, t => t.env = s.env

/-- The frame: every piece but the named ones is the same. -/
def SameBut (changed : List Part) (s t : State) : Prop := ∀ p, p ∉ changed → p.Same s t

/-- A word of format NNN (R61): class in place, and the address. -/
def wNnn (c : Word) (nnn : Addr12) : Word := c ||| nnn.zeroExtend 16

/-- A word of format XKK (R61). -/
def wXkk (c : Word) (x : Reg) (kk : Byte) : Word := c ||| x.zeroExtend 16 <<< 8 ||| kk.zeroExtend 16

/-- A word of format XY (R61), the sub-opcode in c. -/
def wXy (c : Word) (x y : Reg) : Word := c ||| x.zeroExtend 16 <<< 8 ||| y.zeroExtend 16 <<< 4

/-- A word of format XYN (R61). -/
def wXyn (c : Word) (x y : Reg) (n : Nibble) : Word :=
  c ||| x.zeroExtend 16 <<< 8 ||| y.zeroExtend 16 <<< 4 ||| n.zeroExtend 16

/-- A word of format X (R61), the low byte in c. -/
def wX (c : Word) (x : Reg) : Word := c ||| x.zeroExtend 16 <<< 8

/-- An instruction with `PC` advanced to PCn in s has raised the fault c (R86): `PC` is back on it, the latch records
cause, address and word, and nothing else has changed. -/
def FaultedBy (c : Cause) (w : Word) (s t : State) : Prop :=
  t.pc = s.pc - 2 ∧ t.fault = some { cause := c, addr := s.pc - 2, word := some w } ∧ SameBut [.fault] s t

/-- `PC` after an instruction at `PC` of s, by the table of R83; s is the state before the step. -/
def finalPc (i : Instr) (s : State) : Word :=
  match i with
  | .jp nnn => BitVec.ofNat 16 nnn.toNat
  | .call nnn => if s.sp.val = 16 then s.pc else BitVec.ofNat 16 nnn.toNat
  | .ret => if h : 0 < s.sp.val then s.stack[s.sp.val - 1]'(by omega) else s.pc
  | .jpV0 nnn => BitVec.ofNat 16 (nnn.toNat + (s.reg 0).toNat)
  | .seKk x kk => if s.reg x = kk then s.pc + 4 else s.pc + 2
  | .sneKk x kk => if s.reg x ≠ kk then s.pc + 4 else s.pc + 2
  | .seVy x y => if s.reg x = s.reg y then s.pc + 4 else s.pc + 2
  | .sneVy x y => if s.reg x ≠ s.reg y then s.pc + 4 else s.pc + 2
  | .skp x => if ∃ k, s.key = some k ∧ k.toNat = (s.reg x).toNat then s.pc + 4 else s.pc + 2
  | .sknp x => if ∃ k, s.key = some k ∧ k.toNat = (s.reg x).toNat then s.pc + 2 else s.pc + 4
  | .ldVxK _ => if s.key = none then s.pc else s.pc + 2
  | .addI x => if 0xFFF < s.i.toNat + (s.reg x).toNat then s.pc else s.pc + 2
  | .ldB _ => if 0xFFF < s.i.toNat + 2 then s.pc else s.pc + 2
  | .stRegs x | .ldRegs x => if 0xFFF < s.i.toNat + x.toNat then s.pc else s.pc + 2
  | .drw _ _ n => if n.toNat ≠ 0 ∧ 0xFFF < s.i.toNat + n.toNat - 1 then s.pc else s.pc + 2
  | .cls | .ldKk _ _ | .addKk _ _ | .ldVy _ _ | .orVy _ _ | .andVy _ _ | .xorVy _ _ | .addVy _ _ | .sub _ _
  | .shr _ _ | .subn _ _ | .shl _ _ | .ldI _ | .rnd _ _ | .ldVxDt _ | .ldDtVx _ | .ldStVx _ | .ldF _ => s.pc + 2

/-- The fault an instruction raises in a state, by the table of R151. -/
def raises (i : Instr) (s : State) : Option Cause :=
  match i with
  | .call _ => if s.sp.val = 16 then some .stackOverflow else none
  | .ret => if s.sp.val = 0 then some .stackUnderflow else none
  | .ldB _ => if 0xFFF < s.i.toNat + 2 then some .memOutOfRange else none
  | .stRegs x | .ldRegs x => if 0xFFF < s.i.toNat + x.toNat then some .memOutOfRange else none
  | .drw _ _ n => if n.toNat ≠ 0 ∧ 0xFFF < s.i.toNat + n.toNat - 1 then some .memOutOfRange else none
  | .addI x => if 0xFFF < s.i.toNat + (s.reg x).toNat then some .addrRegOverflow else none
  | .cls | .jp _ | .jpV0 _ | .seKk _ _ | .sneKk _ _ | .seVy _ _ | .sneVy _ _ | .ldKk _ _ | .addKk _ _ | .ldVy _ _
  | .orVy _ _ | .andVy _ _ | .xorVy _ _ | .addVy _ _ | .sub _ _ | .shr _ _ | .subn _ _ | .shl _ _ | .ldI _
  | .rnd _ _ | .skp _ | .sknp _ | .ldVxDt _ | .ldVxK _ | .ldDtVx _ | .ldStVx _ | .ldF _ => none

/-- R11, column "writes": the general registers an instruction may write. -/
def writes (i : Instr) (r : Reg) : Prop :=
  match i with
  | .ldKk x _ | .addKk x _ | .ldVy x _ | .orVy x _ | .andVy x _ | .xorVy x _ | .rnd x _ | .ldVxDt x
  | .ldVxK x => r = x
  | .addVy x _ | .sub x _ | .subn x _ | .shr x _ | .shl x _ => r = x ∨ r = 15#4
  | .drw _ _ _ => r = 15#4
  | .ldRegs x => r.toNat ≤ x.toNat
  | .cls | .ret | .jp _ | .call _ | .ldI _ | .seKk _ _ | .sneKk _ _ | .seVy _ _ | .sneVy _ _ | .jpV0 _ | .skp _
  | .sknp _ | .ldDtVx _ | .ldStVx _ | .addI _ | .ldF _ | .ldB _ | .stRegs _ => False

/-- R11, column "reads": the general registers an instruction may read. -/
def reads (i : Instr) (r : Reg) : Prop :=
  match i with
  | .seKk x _ | .sneKk x _ | .addKk x _ | .shr x _ | .shl x _ | .skp x | .sknp x | .ldDtVx x | .ldStVx x | .addI x
  | .ldF x | .ldB x => r = x
  | .seVy x y | .sneVy x y | .orVy x y | .andVy x y | .xorVy x y | .addVy x y | .sub x y | .subn x y
  | .drw x y _ => r = x ∨ r = y
  | .ldVy _ y => r = y
  | .jpV0 _ => r = 0#4
  | .stRegs x => r.toNat ≤ x.toNat
  | .cls | .ret | .jp _ | .call _ | .ldI _ | .ldKk _ _ | .rnd _ _ | .ldVxDt _ | .ldVxK _ | .ldRegs _ => False

/-- The pieces beside `PC` that an instruction may change (the "written by" of R12, R14, R15, R17, R19 to R23). -/
def mayChange : Instr → List Part
  | .cls => [.screen]
  | .ret | .call _ => [.stack, .fault]
  | .jp _ | .jpV0 _ | .seKk _ _ | .sneKk _ _ | .seVy _ _ | .sneVy _ _ | .skp _ | .sknp _ => []
  | .ldKk _ _ | .addKk _ _ | .ldVy _ _ | .orVy _ _ | .andVy _ _ | .xorVy _ _ | .addVy _ _ | .sub _ _ | .shr _ _
  | .subn _ _ | .shl _ _ | .rnd _ _ | .ldVxDt _ => [.regs]
  | .ldI _ | .ldF _ => [.index]
  | .addI _ => [.index, .fault]
  | .drw _ _ _ => [.regs, .screen, .fault]
  | .ldVxK _ => [.regs, .mode]
  | .ldDtVx _ => [.delay]
  | .ldStVx _ => [.sound]
  | .ldB _ | .stRegs _ => [.memory, .fault]
  | .ldRegs _ => [.regs, .fault]

/-- How many bytes from `I` up an instruction stores (R45). -/
def storedBytes : Instr → Nat
  | .ldB _ => 3
  | .stRegs x => x.toNat + 1
  | .cls | .ret | .jp _ | .call _ | .seKk _ _ | .sneKk _ _ | .seVy _ _ | .ldKk _ _ | .addKk _ _ | .ldVy _ _
  | .orVy _ _ | .andVy _ _ | .xorVy _ _ | .addVy _ _ | .sub _ _ | .shr _ _ | .subn _ _ | .shl _ _ | .sneVy _ _
  | .ldI _ | .jpV0 _ | .rnd _ _ | .drw _ _ _ | .skp _ | .sknp _ | .ldVxDt _ | .ldVxK _ | .ldDtVx _ | .ldStVx _
  | .addI _ | .ldF _ | .ldRegs _ => 0

/-- The bytes an instruction stores from `I` up (R43): Fx33 the decimal digits of Vx, hundreds first, Fx55 V0 to Vx. -/
def storedList (i : Instr) (s : State) : List Byte :=
  match i with
  | .ldB x =>
    [BitVec.ofNat 8 ((s.reg x).toNat / 100), BitVec.ofNat 8 ((s.reg x).toNat / 10 % 10),
      BitVec.ofNat 8 ((s.reg x).toNat % 10)]
  | .stRegs x => (List.range (x.toNat + 1)).map fun k => s.reg (BitVec.ofNat 4 k)
  | .cls | .ret | .jp _ | .call _ | .seKk _ _ | .sneKk _ _ | .seVy _ _ | .ldKk _ _ | .addKk _ _ | .ldVy _ _
  | .orVy _ _ | .andVy _ _ | .xorVy _ _ | .addVy _ _ | .sub _ _ | .shr _ _ | .subn _ _ | .shl _ _ | .sneVy _ _
  | .ldI _ | .jpV0 _ | .rnd _ _ | .drw _ _ _ | .skp _ | .sknp _ | .ldVxDt _ | .ldVxK _ | .ldDtVx _ | .ldStVx _
  | .addI _ | .ldF _ | .ldRegs _ => []

/-- The byte at an address once an instruction has stored its bytes: the stored one where it stores one, else as before. -/
def byteAfter (i : Instr) (s : State) (a : Nat) : Byte :=
  if s.i.toNat ≤ a then ((storedList i s)[a - s.i.toNat]?).getD (s.mem.read a) else s.mem.read a

/-- R87: the instructions that read the `now` input. -/
def readsNow (i : Instr) : Prop := ∃ x, i = .ldVxDt x ∨ i = .ldDtVx x ∨ i = .ldStVx x

/-- R87: the instructions that read the `key` input. -/
def readsKey (i : Instr) : Prop := ∃ x, i = .skp x ∨ i = .sknp x ∨ i = .ldVxK x

/-- R87: the instruction that reads the `rand` input. -/
def readsRand (i : Instr) : Prop := ∃ x kk, i = .rnd x kk

/-- The same outcome with another host's side. -/
def withEnv (e : Env) : Result → Result
  | .next s => .next { s with env := e }
  | .fault r => .fault r
  | .refused r => .refused r

/-- The two states differ at most in what the spec says nothing in the block reads: `MODE` (R19), the sound timer (R22),
`DIAG` (R24), and stack entries at SP and above (R15). -/
def AgreeOnWhatIsRead (s t : State) : Prop :=
  (∀ k : Fin 16, k.val < s.sp.val → t.stack[k] = s.stack[k]) ∧ t.sp = s.sp ∧ t.pc = s.pc ∧
  SameBut [.stack, .mode, .sound, .diag] s t

/-- A 1 bit of the sprite lies on the pixel (R133): row r, column col, of a sprite of bytes `row 0` to `row (n-1)` drawn
at (x, y). -/
def SpriteOn (x y n : Nat) (row : Nat → Byte) (px : Fin 64) (py : Fin 32) : Prop :=
  ∃ r col, r < n ∧ col < 8 ∧ (row r).getLsbD (7 - col) = true ∧ px.val = (x + col) % 64 ∧ py.val = (y + r) % 32

/-- Steps from s to t along which SP is never below k, the first state excepted. -/
inductive RunAbove (k : Nat) : State → State → Prop where
  | stay (s : State) : RunAbove k s s
  | more (s t u : State) : RunAbove k s t → step t = .next u → k ≤ u.sp.val → RunAbove k s u

end Sys2Proof.Claims

open Sys2Proof Sys2Proof.Machine Sys2Proof.Claims

/-! Encoding -/

/-- 30 R63 and the words of 95 T-E: words written out from the spec's encodings decode to what they stand for, and the
words it calls unrecognized are refused by name. Matching every fixed nibble is the spec's decision D8. -/
def Obligations.SampleWordsDecode : Prop :=
  decodeWord 0x00E0 = .ok .cls ∧ decodeWord 0x1ABC = .ok (.jp 0xABC) ∧ decodeWord 0x3A7F = .ok (.seKk 10 0x7F) ∧
  decodeWord 0x8AB4 = .ok (.addVy 10 11) ∧ decodeWord 0xD12F = .ok (.drw 1 2 15) ∧
  decodeWord 0xE19E = .ok (.skp 1) ∧ decodeWord 0xF133 = .ok (.ldB 1) ∧
  decodeWord 0x8AB8 = .error (.unrecognized 0x8AB8) ∧ decodeWord 0x0123 = .error (.unrecognized 0x0123) ∧
  decode [0x60, 0x0A, 0x70] = .ok (.ldKk 0 0x0A, [0x70]) ∧ decode [0x60] = .error .truncated

/-- The bytes of every instruction decode to it, every operand at every value (R60 to R64). Matching every fixed
nibble is the spec's decision D8. -/
def Obligations.EncodedInstructionDecodesToItself : Prop :=
  ∀ (i : Instr) (rest : List Byte), decode (encodeBytes i ++ rest) = .ok (i, rest)

/-- Every recognized word is the encoding of what it decodes to: no bit is dropped, the ignored y of the shifts
included (R64, R67). Matching every fixed nibble is the spec's decision D8. -/
def Obligations.DecodedWordEncodesBack : Prop :=
  ∀ (w : Word) (i : Instr), decodeWord w = .ok i → encode i = w

/-- R64: the match and mask of each of the 34 rows, in the table's order; and a word is an instruction of a row exactly
when its masked bits are the row's match value. The row of an instruction is named by its match value, which no two rows
share. -/
def Obligations.TableRowMatchesExactly : Prop :=
  ([Instr.cls, .ret, .jp 0, .call 0, .seKk 0 0, .sneKk 0 0, .seVy 0 0, .ldKk 0 0, .addKk 0 0, .ldVy 0 0, .orVy 0 0,
      .andVy 0 0, .xorVy 0 0, .addVy 0 0, .sub 0 0, .shr 0 0, .subn 0 0, .shl 0 0, .sneVy 0 0, .ldI 0, .jpV0 0,
      .rnd 0 0, .drw 0 0 0, .skp 0, .sknp 0, .ldVxDt 0, .ldVxK 0, .ldDtVx 0, .ldStVx 0, .addI 0, .ldF 0, .ldB 0,
      .stRegs 0, .ldRegs 0].map fun i => (i.pattern, i.mask)) =
    [(0x00E0, 0xFFFF), (0x00EE, 0xFFFF), (0x1000, 0xF000), (0x2000, 0xF000), (0x3000, 0xF000), (0x4000, 0xF000),
      (0x5000, 0xF00F), (0x6000, 0xF000), (0x7000, 0xF000), (0x8000, 0xF00F), (0x8001, 0xF00F), (0x8002, 0xF00F),
      (0x8003, 0xF00F), (0x8004, 0xF00F), (0x8005, 0xF00F), (0x8006, 0xF00F), (0x8007, 0xF00F), (0x800E, 0xF00F),
      (0x9000, 0xF00F), (0xA000, 0xF000), (0xB000, 0xF000), (0xC000, 0xF000), (0xD000, 0xF000), (0xE09E, 0xF0FF),
      (0xE0A1, 0xF0FF), (0xF007, 0xF0FF), (0xF00A, 0xF0FF), (0xF015, 0xF0FF), (0xF018, 0xF0FF), (0xF01E, 0xF0FF),
      (0xF029, 0xF0FF), (0xF033, 0xF0FF), (0xF055, 0xF0FF), (0xF065, 0xF0FF)] ∧
  ∀ (w : Word) (i : Instr),
    (w &&& i.mask = i.pattern ↔ ∃ j, decodeWord w = .ok j ∧ j.pattern = i.pattern)

/-- R65: the unrecognized words, class by class. Matching every fixed nibble is the spec's decision D8. -/
def Obligations.UnrecognizedWordsExactly : Prop :=
  ∀ w : Word, decodeWord w = .error (.unrecognized w) ↔
    (w.toNat / 4096 = 0 ∧ w ≠ 0x00E0 ∧ w ≠ 0x00EE) ∨
    (w.toNat / 4096 = 5 ∧ w.toNat % 16 ≠ 0) ∨
    (w.toNat / 4096 = 8 ∧ w.toNat % 16 ∈ [8, 9, 10, 11, 12, 13, 15]) ∨
    (w.toNat / 4096 = 9 ∧ w.toNat % 16 ≠ 0) ∨
    (w.toNat / 4096 = 14 ∧ w.toNat % 256 ∉ [0x9E, 0xA1]) ∨
    (w.toNat / 4096 = 15 ∧ w.toNat % 256 ∉ [0x07, 0x0A, 0x15, 0x18, 0x1E, 0x29, 0x33, 0x55, 0x65])

/-- R67: all values of y give a shift the same effect; Vy is neither read nor, unless it is Vx or VF, written. VF as
register 15 is the spec's decision D1 (log 6), and what a shift leaves when x names VF its decision D2 (log 7). -/
def Obligations.ShiftsIgnoreTheirYField : Prop :=
  ∀ (x y y' : Reg) (s : State),
    exec (.shr x y) s = exec (.shr x y') s ∧ exec (.shl x y) s = exec (.shl x y') s ∧
    (y ≠ x → y ≠ 15#4 → ∀ (b : Byte), ∃ t u t' u',
      exec (.shr x y) s = .next t ∧ exec (.shr x y) (s.setReg y b) = .next u ∧ u = t.setReg y b ∧
      t.reg y = s.reg y ∧
      exec (.shl x y) s = .next t' ∧ exec (.shl x y) (s.setReg y b) = .next u' ∧ u' = t'.setReg y b ∧
      t'.reg y = s.reg y)

/-! The step -/

/-- R80: when the block is not halted and the bytes at `PC` decode to i, the step is i run with `PC` advanced by 2,
and then the host's side moves on: the clock to the step's `now`, the tick by one, the script past its first entry.
Where the inputs stand is the model's choice (log 1). -/
def Obligations.StepRunsTheDecodedInstruction : Prop :=
  ∀ (s : State) (i : Instr), s.CanFetch → i.wellFormed = true →
    decode [s.mem.read s.pc.toNat, s.mem.read (s.pc.toNat + 1)] = .ok (i, []) →
    step s = match exec i { s with pc := s.pc + 2 } with
      | .next t => .next { t with env := { t.env with
          clock := t.env.clock + t.input.elapsed, tick := t.env.tick + 1, script := t.env.script.tail } }
      | .fault r => .fault r
      | .refused r => .refused r

/-- R42: the fetched word is MEM[PC] * 256 + MEM[PC+1]; and the bytes `60 0A 70 05 12 00` from 0x200 up hold the words
0x600A, 0x7005, 0x1200 at 0x200, 0x202, 0x204. -/
def Obligations.FetchIsBigEndian : Prop :=
  (∀ s : State, s.pc.toNat ≤ 0xFFE → ∃ w, fetch s = some w ∧
    w.toNat = (s.mem.read s.pc.toNat).toNat * 256 + (s.mem.read (s.pc.toNat + 1)).toNat) ∧
  ∀ s : State, s.mem.readBytes 0x200 6 = [0x60, 0x0A, 0x70, 0x05, 0x12, 0x00] →
    fetch { s with pc := 0x200 } = some 0x600A ∧ fetch { s with pc := 0x202 } = some 0x7005 ∧
    fetch { s with pc := 0x204 } = some 0x1200

/-- R80 line 1, R86: a halted block does not change, however many steps are taken. The halt is the spec's decision D3;
that the host's side stands still too is the model's (log 13). -/
def Obligations.HaltedBlockNeverChanges : Prop :=
  ∀ (s : State) (n : Nat), s.fault ≠ none → step s = .next s ∧ Host.Core.run Sys2Proof.core n s = .next s

/-- R47: with `PC` > 0xFFE, and only then, the step raises FetchOutOfRange, and nothing is changed, `PC` included; so
a fetch at 0xFFF faults. The fault is the spec's decisions D3 and D6. -/
def Obligations.FetchPastTheEndFaults : Prop :=
  (∀ s : State, s.fault = none → 0xFFE < s.pc.toNat → ∃ t, step s = .next t ∧ t.pc = s.pc ∧
    t.fault = some { cause := .fetchOutOfRange, addr := s.pc, word := none } ∧ SameBut [.fault, .env] s t) ∧
  (∀ (s t : State) (r : FaultRecord), s.fault = none → step s = .next t → t.fault = some r →
    r.cause = .fetchOutOfRange → 0xFFE < s.pc.toNat) ∧
  (∀ s : State, s.fault = none → s.pc = 0x0FFF → ∃ t r, step s = .next t ∧ t.fault = some r ∧
    r.cause = .fetchOutOfRange)

/-- R156: an unrecognized word at a moves `PC` to a + 2 and appends (a, w) to `DIAG`, and nothing else happens. The
report is the spec's decision D7. -/
def Obligations.UnrecognizedWordIsReported : Prop :=
  ∀ (s : State) (w : Word), s.fault = none → fetch s = some w → decodeWord w = .error (.unrecognized w) →
    ∃ t, step s = .next t ∧ t.pc = s.pc + 2 ∧ t.diag = s.diag ++ [(s.pc, w)] ∧ t.fault = none ∧
      SameBut [.diag, .env] s t

/-- R80: `Step` is total: every state has a next state. A fatal error is a next state with the latch set (the spec's
decision D3, log 9). -/
def Obligations.EveryStepAnswersANextState : Prop := ∀ s : State, ∃ t, step s = .next t

/-- R83: `PC` after a step, by instruction; after an unrecognized word; after a fault. The spec marks the table as
derived; what a fault leaves is its decision D3. -/
def Obligations.FinalPcByInstruction : Prop :=
  (∀ (s : State) (w : Word) (i : Instr), s.fault = none → fetch s = some w → decodeWord w = .ok i →
    ∃ t, step s = .next t ∧ t.pc = finalPc i s) ∧
  (∀ (s : State) (w : Word) (e : DecodeError), s.fault = none → fetch s = some w → decodeWord w = .error e →
    ∃ t, step s = .next t ∧ t.pc = s.pc + 2) ∧
  (∀ s t : State, s.fault = none → step s = .next t → t.fault ≠ none → t.pc = s.pc)

/-- R86: a step that faults leaves all state as it was, `PC` included, but for the latch, which records the
instruction's address and its word (none for a fetch fault); and from then on every step changes nothing. This is the
spec's decision D3 (log 9). -/
def Obligations.FaultsArePreciseAndFinal : Prop :=
  ∀ s t : State, s.fault = none → step s = .next t → t.fault ≠ none →
    t.pc = s.pc ∧ SameBut [.fault, .env] s t ∧
    (∃ c, t.fault = some { cause := c, addr := s.pc, word := fetch s } ∧ (fetch s = none ↔ c = .fetchOutOfRange)) ∧
    ∀ n, Host.Core.run Sys2Proof.core n t = .next t

/-- R151: the causes, their codes, the conditions that raise them, and what is recorded. The codes and the latch are
the spec's decisions D3 to D7; with FX1E_MODE = fault (log 8). -/
def Obligations.FaultsAreRaisedExactly : Prop :=
  (Cause.code .stackOverflow = 1 ∧ Cause.code .stackUnderflow = 2 ∧ Cause.code .memOutOfRange = 3 ∧
    Cause.code .fetchOutOfRange = 4 ∧ Cause.code .addrRegOverflow = 5) ∧
  (∀ s : State, s.fault = none → fetch s = none → ∃ t, step s = .next t ∧
    t.fault = some { cause := .fetchOutOfRange, addr := s.pc, word := none }) ∧
  (∀ s : State, fetch s = none ↔ 0xFFE < s.pc.toNat) ∧
  (∀ (s : State) (w : Word) (i : Instr), s.fault = none → fetch s = some w → decodeWord w = .ok i →
    ∃ t, step s = .next t ∧ t.diag = s.diag ∧
      t.fault = (raises i s).map fun c => { cause := c, addr := s.pc, word := some w }) ∧
  (∀ (s : State) (w : Word), s.fault = none → fetch s = some w → decodeWord w = .error (.unrecognized w) →
    ∃ t, step s = .next t ∧ t.fault = none ∧ t.diag = s.diag ++ [(s.pc, w)])

/-- R87: an input reaches only the instructions that read it: another host's side that agrees on the inputs an
instruction reads gives the same outcome. The three inputs are the spec's decisions D10, D11, D29; where they stand is
the model's choice (log 1). -/
def Obligations.InputsReachOnlyTheirReaders : Prop :=
  ∀ (i : Instr) (s : State) (e : Env),
    (readsNow i → ({ s with env := e } : State).now = s.now) →
    (readsKey i → ({ s with env := e } : State).key = s.key) →
    (readsRand i → ({ s with env := e } : State).rand = s.rand) →
    exec i { s with env := e } = withEnv e (exec i s)

/-- R15, R19, R22, R24: the mode, the sound timer, the diagnostic log and the dead stack entries are read by nothing:
states that agree on the rest step to states that agree on the rest. The spec's decisions D3, D7, D12, D25 give the
pieces their places (log 12). -/
def Obligations.ModeSoundDiagAndDeadEntriesAreNeverRead : Prop :=
  ∀ s t : State, AgreeOnWhatIsRead s t →
    ∃ s' t', step s = .next s' ∧ step t = .next t' ∧ AgreeOnWhatIsRead s' t'

/-- R11, column "writes": the frame of the general registers, for every instruction. The spec marks the table as
derived; VF as register 15 is its decision D1 (log 6). -/
def Obligations.OnlyNamedRegistersAreWritten : Prop :=
  ∀ (i : Instr) (s t : State) (r : Reg), exec i s = .next t → ¬ writes i r → t.reg r = s.reg r

/-- R11, column "reads": with the registers an instruction reads left alone, other values in the rest change nothing
but the registers it leaves as they were. The spec marks the table as derived; VF as register 15 is its decision D1
(log 6). -/
def Obligations.OnlyNamedRegistersAreRead : Prop :=
  ∀ (i : Instr) (s s' : State), s'.pc = s.pc → SameBut [.regs] s s' → (∀ r, reads i r → s'.reg r = s.reg r) →
    ∃ t t', exec i s = .next t ∧ exec i s' = .next t' ∧ t'.pc = t.pc ∧ SameBut [.regs] t t' ∧
      ∀ r, (t'.reg r = t.reg r ∧ writes i r) ∨ (t.reg r = s.reg r ∧ t'.reg r = s'.reg r)

/-- The frame of everything beside the registers' values and `PC`, for every instruction: `I` is written by Annn,
Fx1E, Fx29 alone (R14), the stack by 2nnn and 00EE (R15), Memory by Fx33 and Fx55 (R17), the mode by Fx0A (R19), the
screen by 00E0 and Dxyn (R20), the delay timer by Fx15 (R21), the sound timer by Fx18 (R22), the latch by a faulting
instruction (R23); no instruction writes `DIAG` (R24) or the host's side (R25). That a table row lists every effect is
the spec's decision D18. -/
def Obligations.EachPieceHasOnlyItsWriters : Prop :=
  ∀ (i : Instr) (s t : State), exec i s = .next t → SameBut (mayChange i) s t

/-- R45, R46: every byte of Memory outside the bytes an instruction stores, which start at `I`, reads as before; for
an instruction that stores nothing, every byte. That a faulting store writes nothing is the spec's decision D4. -/
def Obligations.OnlyTheStoredBytesChange : Prop :=
  ∀ (i : Instr) (s t : State), exec i s = .next t →
    ∀ a, (a < s.i.toNat ∨ s.i.toNat + storedBytes i ≤ a) → t.mem.read a = s.mem.read a

/-! Reset, load, invariants -/

/-- R180: the state after `Reset`. The screen and the mode are the spec's decision D13, Memory outside the glyph table
its D14 (the free value of log 4), the glyph bytes its D15 (log 5). -/
def Obligations.ResetState : Prop :=
  (∀ r, State.reset.reg r = 0) ∧ State.reset.pc = 0x200 ∧ State.reset.i = 0 ∧ State.reset.sp = 0 ∧
  (∀ k : Fin 16, State.reset.stack[k] = 0) ∧
  (∀ a, a < 80 → some (State.reset.mem.read a) = Config.glyphs[a]?) ∧
  (∀ a, 80 ≤ a → State.reset.mem.read a = Config.memInit a) ∧
  State.reset.mode = .running ∧ (∀ px py, FrameBuffer.pixel State.reset.fb px py = false) ∧
  State.reset.dt.value = 0 ∧ State.reset.st.value = 0 ∧ State.reset.fault = none ∧ State.reset.diag = []

/-- R186: an image of at most 3584 bytes lies verbatim from 0x200 up and nothing else of the block changes; of the host's
side the record that `Load` has been done is set, and the clock, the count of steps and the script stay. `Load` is open
after `Reset`. Every second load is refused, so is a load after the first step, and a longer image gives no state. When
`Load` is allowed is the spec's decision D26; its record and the names of the refusals are the model's (logs 14, 17). -/
def Obligations.LoadPlacesTheImage : Prop :=
  (∀ (s : State) (image : List Byte), s.env.loaded = false → s.env.tick = 0 → image.length ≤ 3584 →
    ∃ t, load image s = .next t ∧ t.pc = s.pc ∧
      (∀ k (h : k < image.length), t.mem.read (0x200 + k) = image[k]) ∧
      (∀ a, (a < 0x200 ∨ 0x200 + image.length ≤ a) → t.mem.read a = s.mem.read a) ∧
      SameBut [.memory, .env] s t ∧ t.env = { s.env with loaded := true } ∧
      ∀ image', load image' t = .refused .loadedAlready) ∧
  (∀ (s t : State) (image : List Byte), load image s = .next t →
    image.length ≤ 3584 ∧ s.env.loaded = false ∧ s.env.tick = 0) ∧
  (∀ (s : State) (image : List Byte), s.env.loaded = true → load image s = .refused .loadedAlready) ∧
  (∀ (s : State) (image : List Byte), s.env.loaded = false → s.env.tick ≠ 0 →
    load image s = .refused .loadAfterFirstStep) ∧
  (∀ (s : State) (image : List Byte), s.env.loaded = false → s.env.tick = 0 → 3584 < image.length →
    load image s = .fault .imageTooLarge) ∧
  State.reset.env.loaded = false ∧ State.reset.env.tick = 0

/-- R55, R172: once a step has been taken on a block that was not halted, no image can be loaded. A step changes Memory by
its instruction's stores alone: every byte outside the bytes the instruction stores at `I` reads as before, and for a
step that is halted, that faults, or whose word is unrecognized, every byte. When `Load` is allowed is the spec's decision
D26 (log 14); that a faulting store writes nothing is its D4. -/
def Obligations.NoLoadDuringARun : Prop :=
  (∀ (s t : State) (image : List Byte), s.fault = none → step s = .next t → ∃ r, load image t = .refused r) ∧
  (∀ (s t : State) (w : Word) (i : Instr), fetch s = some w → decodeWord w = .ok i → step s = .next t →
    ∀ a, (a < s.i.toNat ∨ s.i.toNat + storedBytes i ≤ a) → t.mem.read a = s.mem.read a) ∧
  (∀ s t : State, step s = .next t →
    (t.fault ≠ none ∨ ∃ w, fetch s = some w ∧ decodeWord w = .error (.unrecognized w)) →
    ∀ a, t.mem.read a = s.mem.read a)

/-- The state after reset meets the invariant (`State.Inv`). The set-instants and the clock at reset are the model's
choices (logs 10 and 17). -/
def Obligations.ResetMeetsTheInvariant : Prop := State.reset.Inv

/-- Every step keeps the invariant: canonical memory, `PC` at most 0x10FE (R84), `I` at most 0xFFF (R14), live stack
entries at most 0x1000 (R84), timers set no later than the clock (R148(g)), faults precise (R162), diagnostics of
unrecognized words alone (R156), and in AwaitingKey an Fx0A at `PC` (R19). It rests on the spec's decisions D3, D5,
D6, D7, D11 and on the model's memory form (log 4). -/
def Obligations.StepKeepsTheInvariant : Prop := ∀ s t : State, s.Inv → step s = .next t → t.Inv

/-- Memory keeps its canonical form under every instruction and every step, from any canonical memory. The form is the
model's (log 4). -/
def Obligations.MemoryStaysCanonical : Prop :=
  (∀ (i : Instr) (s t : State), s.mem.wf = true → exec i s = .next t → t.mem.wf = true) ∧
  (∀ s t : State, s.mem.wf = true → step s = .next t → t.mem.wf = true)

/-! Control flow. In the statements about `exec`, s is the state while the instruction executes: `s.pc` is PCn = a + 2. -/

/-- R91: 00EE pops the newest entry into `PC`; with an empty stack it raises StackUnderflow. What a fault leaves is
the spec's decision D3 (log 9). -/
def Obligations.RetPopsIntoPc : Prop :=
  (∀ w, decodeWord w = .ok .ret ↔ w = 0x00EE) ∧
  (∀ (s : State) (h : 0 < s.sp.val), ∃ t, exec .ret s = .next t ∧ t.sp.val = s.sp.val - 1 ∧
    t.pc = s.stack[s.sp.val - 1]'(by omega) ∧ (∀ k : Fin 16, t.stack[k] = s.stack[k]) ∧ SameBut [.stack] s t) ∧
  (∀ s : State, s.sp.val = 0 → ∃ t, exec .ret s = .next t ∧ FaultedBy .stackUnderflow 0x00EE s t)

/-- R92: 1nnn. -/
def Obligations.JpSetsPc : Prop :=
  ∀ nnn : Addr12, decodeWord (wNnn 0x1000 nnn) = .ok (.jp nnn) ∧
    ∀ s : State, ∃ t, exec (.jp nnn) s = .next t ∧ t.pc.toNat = nnn.toNat ∧ SameBut [] s t

/-- R93: 2nnn pushes PCn and jumps; with a full stack it raises StackOverflow. What a fault leaves is the spec's
decision D3 (log 9). -/
def Obligations.CallPushesAndJumps : Prop :=
  ∀ nnn : Addr12, decodeWord (wNnn 0x2000 nnn) = .ok (.call nnn) ∧
    (∀ (s : State) (h : s.sp.val < 16), ∃ t, exec (.call nnn) s = .next t ∧ t.stack[s.sp.val]'h = s.pc ∧
      t.sp.val = s.sp.val + 1 ∧ t.pc.toNat = nnn.toNat ∧
      (∀ k : Fin 16, k.val ≠ s.sp.val → t.stack[k] = s.stack[k]) ∧ SameBut [.stack] s t) ∧
    (∀ s : State, s.sp.val = 16 →
      ∃ t, exec (.call nnn) s = .next t ∧ FaultedBy .stackOverflow (wNnn 0x2000 nnn) s t)

/-- R94, R95: 3xkk and 4xkk. -/
def Obligations.SkipsOnImmediate : Prop :=
  ∀ (x : Reg) (kk : Byte), decodeWord (wXkk 0x3000 x kk) = .ok (.seKk x kk) ∧
    decodeWord (wXkk 0x4000 x kk) = .ok (.sneKk x kk) ∧
    ∀ s : State,
      (∃ t, exec (.seKk x kk) s = .next t ∧ SameBut [] s t ∧
        t.pc = if (s.reg x).toNat = kk.toNat then s.pc + 2 else s.pc) ∧
      (∃ t, exec (.sneKk x kk) s = .next t ∧ SameBut [] s t ∧
        t.pc = if (s.reg x).toNat = kk.toNat then s.pc else s.pc + 2)

/-- R96, R97: 5xy0 and 9xy0; a low nibble other than 0 is unrecognized. -/
def Obligations.SkipsOnRegisters : Prop :=
  (∀ (x y : Reg) (n : Nibble), n ≠ 0 →
    decodeWord (wXyn 0x5000 x y n) = .error (.unrecognized (wXyn 0x5000 x y n)) ∧
    decodeWord (wXyn 0x9000 x y n) = .error (.unrecognized (wXyn 0x9000 x y n))) ∧
  ∀ x y : Reg, decodeWord (wXy 0x5000 x y) = .ok (.seVy x y) ∧ decodeWord (wXy 0x9000 x y) = .ok (.sneVy x y) ∧
    ∀ s : State,
      (∃ t, exec (.seVy x y) s = .next t ∧ SameBut [] s t ∧
        t.pc = if (s.reg x).toNat = (s.reg y).toNat then s.pc + 2 else s.pc) ∧
      (∃ t, exec (.sneVy x y) s = .next t ∧ SameBut [] s t ∧
        t.pc = if (s.reg x).toNat = (s.reg y).toNat then s.pc else s.pc + 2)

/-- R98: Bnnn, the exact sum, and with a sum above 0xFFE the next step faults at its fetch. The width is the spec's
decision D19, the fault at the fetch its D6. -/
def Obligations.JpV0AddsWithoutReduction : Prop :=
  ∀ nnn : Addr12, decodeWord (wNnn 0xB000 nnn) = .ok (.jpV0 nnn) ∧
    ∀ s : State, ∃ t, exec (.jpV0 nnn) s = .next t ∧ t.pc.toNat = nnn.toNat + (s.reg 0).toNat ∧ SameBut [] s t ∧
      (s.fault = none → 0xFFE < nnn.toNat + (s.reg 0).toNat →
        ∃ u, step t = .next u ∧ u.fault = some { cause := .fetchOutOfRange, addr := t.pc, word := none })

/-- R99: a call at a, any run of steps along which SP does not fall below its value after the call, and a return
reached with that value: the return sets `PC` to a + 2. The spec marks the rule as derived. -/
def Obligations.ReturnComesBackToItsCall : Prop :=
  ∀ (s s1 t u : State) (nnn : Addr12) (w w' : Word),
    s.fault = none → fetch s = some w → decodeWord w = .ok (.call nnn) → s.sp.val < 16 → step s = .next s1 →
    RunAbove s1.sp.val s1 t → t.sp = s1.sp → t.fault = none → fetch t = some w' → decodeWord w' = .ok .ret →
    step t = .next u → u.pc = s.pc + 2 ∧ u.sp = s.sp

/-! Register load, arithmetic, logic, shift, random -/

/-- R101, R103: 6xkk and 8xy0. -/
def Obligations.LoadsAndCopies : Prop :=
  ∀ (x y : Reg) (kk : Byte), decodeWord (wXkk 0x6000 x kk) = .ok (.ldKk x kk) ∧
    decodeWord (wXy 0x8000 x y) = .ok (.ldVy x y) ∧
    ∀ s : State,
      (∃ t, exec (.ldKk x kk) s = .next t ∧ t.pc = s.pc ∧ t.reg x = kk ∧ (∀ r, r ≠ x → t.reg r = s.reg r) ∧
        SameBut [.regs] s t) ∧
      (∃ t, exec (.ldVy x y) s = .next t ∧ t.pc = s.pc ∧ t.reg x = s.reg y ∧ (∀ r, r ≠ x → t.reg r = s.reg r) ∧
        SameBut [.regs] s t)

/-- R102: 7xkk wraps modulo 256 and writes no flag. -/
def Obligations.AddImmediateWraps : Prop :=
  ∀ (x : Reg) (kk : Byte), decodeWord (wXkk 0x7000 x kk) = .ok (.addKk x kk) ∧
    ∀ s : State, ∃ t, exec (.addKk x kk) s = .next t ∧ t.pc = s.pc ∧
      (t.reg x).toNat = ((s.reg x).toNat + kk.toNat) % 256 ∧ (∀ r, r ≠ x → t.reg r = s.reg r) ∧ SameBut [.regs] s t

/-- R104 to R106: 8xy1, 8xy2, 8xy3, bit by bit; VF keeps its value unless x names it. -/
def Obligations.LogicIsBitwise : Prop :=
  ∀ x y : Reg, decodeWord (wXy 0x8001 x y) = .ok (.orVy x y) ∧ decodeWord (wXy 0x8002 x y) = .ok (.andVy x y) ∧
    decodeWord (wXy 0x8003 x y) = .ok (.xorVy x y) ∧
    ∀ s : State,
      (∃ t, exec (.orVy x y) s = .next t ∧ t.pc = s.pc ∧ (∀ r, r ≠ x → t.reg r = s.reg r) ∧ SameBut [.regs] s t ∧
        ∀ b < 8, (t.reg x).getLsbD b = ((s.reg x).getLsbD b || (s.reg y).getLsbD b)) ∧
      (∃ t, exec (.andVy x y) s = .next t ∧ t.pc = s.pc ∧ (∀ r, r ≠ x → t.reg r = s.reg r) ∧ SameBut [.regs] s t ∧
        ∀ b < 8, (t.reg x).getLsbD b = ((s.reg x).getLsbD b && (s.reg y).getLsbD b)) ∧
      (∃ t, exec (.xorVy x y) s = .next t ∧ t.pc = s.pc ∧ (∀ r, r ≠ x → t.reg r = s.reg r) ∧ SameBut [.regs] s t ∧
        ∀ b < 8, (t.reg x).getLsbD b = ((s.reg x).getLsbD b ^^ (s.reg y).getLsbD b))

/-- R107: 8xy4. VF is the carry; Vx, when it is not VF, the sum modulo 256. VF as register 15 is the spec's decision
D1 (log 6), the order of the two writes its D2. -/
def Obligations.AddSetsCarry : Prop :=
  ∀ x y : Reg, decodeWord (wXy 0x8004 x y) = .ok (.addVy x y) ∧
    ∀ s : State, ∃ t, exec (.addVy x y) s = .next t ∧ t.pc = s.pc ∧
      t.reg 15 = (if 256 ≤ (s.reg x).toNat + (s.reg y).toNat then 1 else 0) ∧
      (x ≠ 15 → (t.reg x).toNat = ((s.reg x).toNat + (s.reg y).toNat) % 256) ∧
      (∀ r, r ≠ x → r ≠ 15 → t.reg r = s.reg r) ∧ SameBut [.regs] s t

/-- R108, R110: 8xy5 and 8xy7. VF is 1 when no borrow occurs; Vx, when it is not VF, the difference modulo 256. VF as
register 15 is the spec's decision D1 (log 6), the order of the two writes its D2. -/
def Obligations.SubtractsSetNoBorrow : Prop :=
  ∀ x y : Reg, decodeWord (wXy 0x8005 x y) = .ok (.sub x y) ∧ decodeWord (wXy 0x8007 x y) = .ok (.subn x y) ∧
    ∀ s : State,
      (∃ t, exec (.sub x y) s = .next t ∧ t.pc = s.pc ∧
        t.reg 15 = (if (s.reg y).toNat ≤ (s.reg x).toNat then 1 else 0) ∧
        (x ≠ 15 → ((t.reg x).toNat : Int) = ((s.reg x).toNat - (s.reg y).toNat : Int) % 256) ∧
        (∀ r, r ≠ x → r ≠ 15 → t.reg r = s.reg r) ∧ SameBut [.regs] s t) ∧
      (∃ t, exec (.subn x y) s = .next t ∧ t.pc = s.pc ∧
        t.reg 15 = (if (s.reg x).toNat ≤ (s.reg y).toNat then 1 else 0) ∧
        (x ≠ 15 → ((t.reg x).toNat : Int) = ((s.reg y).toNat - (s.reg x).toNat : Int) % 256) ∧
        (∀ r, r ≠ x → r ≠ 15 → t.reg r = s.reg r) ∧ SameBut [.regs] s t)

/-- R109, R111: 8xy6 and 8xyE. Vx is shifted; VF, when it is not Vx, is the bit shifted out; with x = 15 the shifted
value stands. VF as register 15 is the spec's decision D1 (log 6), the order of the two writes and the reading of x =
15 its D2 (log 7). -/
def Obligations.ShiftsSetTheDroppedBit : Prop :=
  ∀ x y : Reg, decodeWord (wXy 0x8006 x y) = .ok (.shr x y) ∧ decodeWord (wXy 0x800E x y) = .ok (.shl x y) ∧
    ∀ s : State,
      (∃ t, exec (.shr x y) s = .next t ∧ t.pc = s.pc ∧ (t.reg x).toNat = (s.reg x).toNat / 2 ∧
        (x ≠ 15 → (t.reg 15).toNat = (s.reg x).toNat % 2) ∧
        (∀ r, r ≠ x → r ≠ 15 → t.reg r = s.reg r) ∧ SameBut [.regs] s t) ∧
      (∃ t, exec (.shl x y) s = .next t ∧ t.pc = s.pc ∧ (t.reg x).toNat = (s.reg x).toNat * 2 % 256 ∧
        (x ≠ 15 → (t.reg 15).toNat = (s.reg x).toNat / 128) ∧
        (∀ r, r ≠ x → r ≠ 15 → t.reg r = s.reg r) ∧ SameBut [.regs] s t)

/-- R112: Cxkk, the step's random byte under the mask, for every byte the host may give. The input is the spec's
decision D29 (log 2). -/
def Obligations.RandomByteIsMasked : Prop :=
  ∀ (x : Reg) (kk : Byte), decodeWord (wXkk 0xC000 x kk) = .ok (.rnd x kk) ∧
    ∀ s : State, ∃ t, exec (.rnd x kk) s = .next t ∧ t.pc = s.pc ∧ t.reg x = s.rand &&& kk ∧
      (∀ b < 8, (t.reg x).getLsbD b = true → kk.getLsbD b = true) ∧
      (∀ r, r ≠ x → t.reg r = s.reg r) ∧ SameBut [.regs] s t

/-- 93 U6, U1, part 2: what the named alternatives would do. The two readings of the shifts differ only at x = 15; the
three readings of Fx1E only past 0xFFF. They are the spec's parameters SHIFT_ALIAS and FX1E_MODE (logs 7 and 8). -/
def Obligations.NamedAlternativesDifferOnlyWhereSaid : Prop :=
  (∀ (s : State) (x : Reg) (f : Byte → Bool) (op : Byte → Byte), x ≠ 15 →
    s.setFlagThenResult .sampled x f op = s.setFlagThenResult .sequential x f op) ∧
  (∀ s : State,
    (s.setFlagThenResult .sequential 15 lowBit fun b => b >>> 1).reg 15 = 0 ∧
    (s.setFlagThenResult .sequential 15 highBit fun b => b <<< 1).reg 15 =
      (if 128 ≤ (s.reg 15).toNat then 2 else 0)) ∧
  (∀ (m : Fx1eMode) (i : Word) (b : Byte), i.toNat + b.toNat ≤ 0xFFF →
    ∃ a, addIndex m i b = some a ∧ a.toNat = i.toNat + b.toNat) ∧
  (∀ (i : Word) (b : Byte), 0xFFF < i.toNat + b.toNat →
    addIndex .fault i b = none ∧
    (∃ a, addIndex .wrap12 i b = some a ∧ a.toNat = (i.toNat + b.toNat) % 4096) ∧
    (∃ a, addIndex .keep16 i b = some a ∧ a.toNat = (i.toNat + b.toNat) % 65536))

/-! Address register, loads and stores -/

/-- R121, R123: Annn and Fx29, the whole byte times 5. That Fx29 takes the whole byte is the spec's decision D20. -/
def Obligations.IndexLoads : Prop :=
  ∀ (nnn : Addr12) (x : Reg), decodeWord (wNnn 0xA000 nnn) = .ok (.ldI nnn) ∧
    decodeWord (wX 0xF029 x) = .ok (.ldF x) ∧
    ∀ s : State,
      (∃ t, exec (.ldI nnn) s = .next t ∧ t.pc = s.pc ∧ t.i.toNat = nnn.toNat ∧ SameBut [.index] s t) ∧
      (∃ t, exec (.ldF x) s = .next t ∧ t.pc = s.pc ∧ t.i.toNat = (s.reg x).toNat * 5 ∧ SameBut [.index] s t)

/-- R122: Fx1E adds exactly, and raises AddrRegOverflow when the sum exceeds 0xFFF; no flag. The fault is the spec's
decision D5 (log 8). -/
def Obligations.AddIndexOrFault : Prop :=
  ∀ x : Reg, decodeWord (wX 0xF01E x) = .ok (.addI x) ∧
    (∀ s : State, s.i.toNat + (s.reg x).toNat ≤ 0xFFF → ∃ t, exec (.addI x) s = .next t ∧ t.pc = s.pc ∧
      t.i.toNat = s.i.toNat + (s.reg x).toNat ∧ SameBut [.index] s t) ∧
    (∀ s : State, 0xFFF < s.i.toNat + (s.reg x).toNat →
      ∃ t, exec (.addI x) s = .next t ∧ FaultedBy .addrRegOverflow (wX 0xF01E x) s t)

/-- R124: Fx33 stores the three decimal digits at `I`, or raises MemOutOfRange and stores nothing. The fault is the
spec's decisions D3 and D4 (log 9). -/
def Obligations.DecimalDigitsAreStored : Prop :=
  ∀ x : Reg, decodeWord (wX 0xF033 x) = .ok (.ldB x) ∧
    (∀ s : State, s.i.toNat ≤ 0xFFD → ∃ t h m l, exec (.ldB x) s = .next t ∧ t.pc = s.pc ∧
      t.mem.read s.i.toNat = h ∧ t.mem.read (s.i.toNat + 1) = m ∧ t.mem.read (s.i.toNat + 2) = l ∧
      h.toNat ≤ 2 ∧ m.toNat ≤ 9 ∧ l.toNat ≤ 9 ∧ (s.reg x).toNat = 100 * h.toNat + 10 * m.toNat + l.toNat ∧
      (∀ a, (a < s.i.toNat ∨ s.i.toNat + 3 ≤ a) → t.mem.read a = s.mem.read a) ∧ SameBut [.memory] s t) ∧
    (∀ s : State, 0xFFD < s.i.toNat →
      ∃ t, exec (.ldB x) s = .next t ∧ FaultedBy .memOutOfRange (wX 0xF033 x) s t)

/-- R125: Fx55 stores `V[0]` to `V[x]` from `I` up, or raises MemOutOfRange and stores nothing; `I` stays. The fault
is the spec's decisions D3 and D4 (log 9). -/
def Obligations.RegistersAreStored : Prop :=
  ∀ x : Reg, decodeWord (wX 0xF055 x) = .ok (.stRegs x) ∧
    (∀ s : State, s.i.toNat + x.toNat ≤ 0xFFF → ∃ t, exec (.stRegs x) s = .next t ∧ t.pc = s.pc ∧
      (∀ r : Reg, r.toNat ≤ x.toNat → t.mem.read (s.i.toNat + r.toNat) = s.reg r) ∧
      (∀ a, (a < s.i.toNat ∨ s.i.toNat + x.toNat < a) → t.mem.read a = s.mem.read a) ∧ SameBut [.memory] s t) ∧
    (∀ s : State, 0xFFF < s.i.toNat + x.toNat →
      ∃ t, exec (.stRegs x) s = .next t ∧ FaultedBy .memOutOfRange (wX 0xF055 x) s t)

/-- R126: Fx65 loads `V[0]` to `V[x]` from `I` up, or raises MemOutOfRange and loads nothing; `I` stays. The fault is
the spec's decisions D3 and D4 (log 9). -/
def Obligations.RegistersAreLoaded : Prop :=
  ∀ x : Reg, decodeWord (wX 0xF065 x) = .ok (.ldRegs x) ∧
    (∀ s : State, s.i.toNat + x.toNat ≤ 0xFFF → ∃ t, exec (.ldRegs x) s = .next t ∧ t.pc = s.pc ∧
      (∀ r : Reg, r.toNat ≤ x.toNat → t.reg r = s.mem.read (s.i.toNat + r.toNat)) ∧
      (∀ r : Reg, x.toNat < r.toNat → t.reg r = s.reg r) ∧ SameBut [.regs] s t) ∧
    (∀ s : State, 0xFFF < s.i.toNat + x.toNat →
      ∃ t, exec (.ldRegs x) s = .next t ∧ FaultedBy .memOutOfRange (wX 0xF065 x) s t)

/-- Storing registers and loading them back from the same place restores them (R125, R126, R45). -/
def Obligations.StoredRegistersLoadBack : Prop :=
  ∀ (x : Reg) (s u : State), s.i.toNat + x.toNat ≤ 0xFFF →
    ∃ t, exec (.stRegs x) s = .next t ∧ (u.i = s.i → (∀ a, u.mem.read a = t.mem.read a) →
      ∃ u', exec (.ldRegs x) u = .next u' ∧ ∀ r : Reg, r.toNat ≤ x.toNat → u'.reg r = s.reg r)

/-- R53: after Fx55 or Fx33 every fetch, of two stored bytes, of one, or of none, gives the bytes as the store left them,
and the next step there runs what that word decodes to, or reports it. The spec marks the rule as derived. -/
def Obligations.StoredBytesAreFetched : Prop :=
  ∀ (x : Reg) (i : Instr) (s : State), (i = .stRegs x ∨ i = .ldB x) → s.i.toNat + storedBytes i ≤ 0x1000 →
    ∃ t, exec i s = .next t ∧ ∀ p : Word, p.toNat ≤ 0xFFE →
      ∃ w, fetch { t with pc := p } = some w ∧
        w.toNat = (byteAfter i s p.toNat).toNat * 256 + (byteAfter i s (p.toNat + 1)).toNat ∧
        (s.fault = none →
          (∀ j, decodeWord w = .ok j → step { t with pc := p } = endStepOf (exec j { t with pc := p + 2 })) ∧
          (decodeWord w = .error (.unrecognized w) →
            ∃ u, step { t with pc := p } = .next u ∧ u.pc = p + 2 ∧ u.diag = t.diag ++ [(p, w)]))

/-! Frame buffer -/

/-- R131: 00E0 turns every pixel off and writes no flag. -/
def Obligations.ClsTurnsEveryPixelOff : Prop :=
  (∀ w, decodeWord w = .ok .cls ↔ w = 0x00E0) ∧
  ∀ s : State, ∃ t, exec .cls s = .next t ∧ t.pc = s.pc ∧ (∀ px py, FrameBuffer.pixel t.fb px py = false) ∧
    SameBut [.screen] s t

/-- R132, R133: Dxyn inverts exactly the pixels under a 1 bit of the sprite at `I`, each wrapped to the grid, and VF
is 1 exactly when one of them was on; with a row past 0xFFF it raises MemOutOfRange and changes nothing. VF as
register 15 is the spec's decision D1 (log 6), the fault its D3, D4 and D27 (log 9). -/
def Obligations.DrwInvertsThePixelsUnderTheSprite : Prop :=
  ∀ (x y : Reg) (n : Nibble), decodeWord (wXyn 0xD000 x y n) = .ok (.drw x y n) ∧
    (∀ s : State, (n.toNat = 0 ∨ s.i.toNat + n.toNat - 1 ≤ 0xFFF) →
      ∃ t, exec (.drw x y n) s = .next t ∧ t.pc = s.pc ∧
        (∀ px py, SpriteOn (s.reg x).toNat (s.reg y).toNat n.toNat (fun r => s.mem.read (s.i.toNat + r)) px py →
          FrameBuffer.pixel t.fb px py = !FrameBuffer.pixel s.fb px py) ∧
        (∀ px py, ¬ SpriteOn (s.reg x).toNat (s.reg y).toNat n.toNat (fun r => s.mem.read (s.i.toNat + r)) px py →
          FrameBuffer.pixel t.fb px py = FrameBuffer.pixel s.fb px py) ∧
        (t.reg 15 = 0 ∨ t.reg 15 = 1) ∧
        (t.reg 15 = 1 ↔ ∃ px py, FrameBuffer.pixel s.fb px py = true ∧
          SpriteOn (s.reg x).toNat (s.reg y).toNat n.toNat (fun r => s.mem.read (s.i.toNat + r)) px py) ∧
        (∀ r, r ≠ 15 → t.reg r = s.reg r) ∧ SameBut [.regs, .screen] s t) ∧
    (∀ s : State, n.toNat ≠ 0 → 0xFFF < s.i.toNat + n.toNat - 1 →
      ∃ t, exec (.drw x y n) s = .next t ∧ FaultedBy .memOutOfRange (wXyn 0xD000 x y n) s t)

/-- R134(d), (e): a second draw of the same sprite restores the frame buffer; on a cleared one the first reports no
collision and the second one exactly when the sprite has a 1 bit; no rows change nothing. The spec marks the rule as
derived. -/
def Obligations.DrawingTwiceRestores : Prop :=
  (∀ (f : FrameBuffer) (x y : Nat) (rows : List Byte), rows.length ≤ 15 →
    (draw (draw f x y rows).1 x y rows).1 = f) ∧
  (∀ (x y : Nat) (rows : List Byte), rows.length ≤ 15 →
    (draw clearFb x y rows).2 = false ∧
    ((draw (draw clearFb x y rows).1 x y rows).2 = true ↔ ∃ row ∈ rows, row ≠ 0)) ∧
  (∀ (f : FrameBuffer) (x y : Nat), draw f x y [] = (f, false))

/-! Keys and timers -/

/-- R140, R141: Ex9E and ExA1; the 4-bit key against all 8 bits of Vx; no key equals nothing. The comparison is the
spec's decision D9. -/
def Obligations.KeySkips : Prop :=
  ∀ x : Reg, decodeWord (wX 0xE09E x) = .ok (.skp x) ∧ decodeWord (wX 0xE0A1 x) = .ok (.sknp x) ∧
    ∀ s : State,
      (∃ t, exec (.skp x) s = .next t ∧ SameBut [] s t ∧
        (t.pc = s.pc + 2 ↔ ∃ k, s.key = some k ∧ k.toNat = (s.reg x).toNat) ∧ (t.pc = s.pc + 2 ∨ t.pc = s.pc)) ∧
      (∃ t, exec (.sknp x) s = .next t ∧ SameBut [] s t ∧
        (t.pc = s.pc ↔ ∃ k, s.key = some k ∧ k.toNat = (s.reg x).toNat) ∧ (t.pc = s.pc + 2 ∨ t.pc = s.pc))

/-- R142: Fx0A. Without a key `PC` is back on the instruction and the mode is AwaitingKey; with one Vx is the key and
the mode Running. The wait is the spec's decision D28. -/
def Obligations.KeyReadWaitsForAKey : Prop :=
  ∀ x : Reg, decodeWord (wX 0xF00A x) = .ok (.ldVxK x) ∧
    (∀ s : State, s.key = none → ∃ t, exec (.ldVxK x) s = .next t ∧ t.pc = s.pc - 2 ∧ t.mode = .awaitingKey ∧
      SameBut [.mode] s t) ∧
    (∀ (s : State) (k : Key), s.key = some k → ∃ t, exec (.ldVxK x) s = .next t ∧ t.pc = s.pc ∧
      t.mode = .running ∧ (t.reg x).toNat = k.toNat ∧ (∀ r, r ≠ x → t.reg r = s.reg r) ∧
      SameBut [.regs, .mode] s t)

/-- R143, R146: Fx07 gives the effective value at the step's `now`, and changes no timer. -/
def Obligations.DelayTimerIsRead : Prop :=
  ∀ x : Reg, decodeWord (wX 0xF007 x) = .ok (.ldVxDt x) ∧
    ∀ s : State, ∃ t, exec (.ldVxDt x) s = .next t ∧ t.pc = s.pc ∧
      (s.dt.instant ≤ s.now →
        ((t.reg x).toNat : Int) = max 0 ((s.dt.value.toNat : Int) - (s.now - s.dt.instant : Int) / 16)) ∧
      (∀ r, r ≠ x → t.reg r = s.reg r) ∧ SameBut [.regs] s t

/-- R144, R145, R147: Fx15 and Fx18 overwrite both the value and the instant of their own timer alone. The sound
timer's set-instant is the spec's decision D12. -/
def Obligations.TimersAreSet : Prop :=
  ∀ x : Reg, decodeWord (wX 0xF015 x) = .ok (.ldDtVx x) ∧ decodeWord (wX 0xF018 x) = .ok (.ldStVx x) ∧
    ∀ s : State,
      (∃ t, exec (.ldDtVx x) s = .next t ∧ t.pc = s.pc ∧ t.dt.value = s.reg x ∧ t.dt.instant = s.now ∧
        SameBut [.delay] s t) ∧
      (∃ t, exec (.ldStVx x) s = .next t ∧ t.pc = s.pc ∧ t.st.value = s.reg x ∧ t.st.instant = s.now ∧
        SameBut [.sound] s t)

/-- R148 (a) to (e): the decay of a latch. -/
def Obligations.TimerDecay : Prop :=
  ∀ (v : Byte) (t0 : Nat),
    eff { value := v, instant := t0 } t0 = v ∧
    (∀ now, t0 ≤ now → v.toNat * 16 ≤ now - t0 → eff { value := v, instant := t0 } now = 0) ∧
    (∀ k e, 16 * k ≤ e → e < 16 * (k + 1) → k ≤ v.toNat →
      (eff { value := v, instant := t0 } (t0 + e)).toNat = v.toNat - k) ∧
    (∀ now later, t0 ≤ now → now ≤ later →
      (eff { value := v, instant := t0 } later).toNat ≤ (eff { value := v, instant := t0 } now).toNat) ∧
    (v = 0 → ∀ now, eff { value := v, instant := t0 } now = 0)

/-- R5, R87: every instruction that reads an input reads the one the host gives the step: Fx07, Fx15, Fx18 the `now`,
Ex9E, ExA1, Fx0A the `key`, `none` included, Cxkk the `rand`. The clock is then that `now`, so that the `now` inputs never
decrease (R148(g)); a `now` before the clock is refused, and a halted block takes nothing. The inputs are the spec's
decisions D10, D11, D29, D30; where they stand, and the refusal, are the model's choice (logs 1, 3 and 13). -/
def Obligations.SuppliedInputsAreTheOnesRead : Prop :=
  (∀ (s : State) (now : Nat) (key : Option Key) (rand : Byte), now < s.env.clock →
    stepWith now key rand s = .refused .nowDecreases) ∧
  (∀ (s : State) (now : Nat) (key : Option Key) (rand : Byte), s.env.clock ≤ now → s.fault ≠ none →
    stepWith now key rand s = .next s) ∧
  (∀ (s : State) (now : Nat) (key : Option Key) (rand : Byte) (w : Word),
    s.fault = none → s.env.clock ≤ now → fetch s = some w →
    ∃ t, stepWith now key rand s = .next t ∧ t.env.clock = now ∧ t.env.script = [] ∧
      t.env.tick = s.env.tick + 1 ∧
      (∀ x, decodeWord w = .ok (.ldVxDt x) → s.dt.instant ≤ now →
        (t.reg x).toNat = s.dt.value.toNat - (now - s.dt.instant) / 16) ∧
      (∀ x, decodeWord w = .ok (.ldDtVx x) → t.dt.value = s.reg x ∧ t.dt.instant = now) ∧
      (∀ x, decodeWord w = .ok (.ldStVx x) → t.st.value = s.reg x ∧ t.st.instant = now) ∧
      (∀ x, decodeWord w = .ok (.skp x) →
        t.pc = if ∃ k, key = some k ∧ k.toNat = (s.reg x).toNat then s.pc + 4 else s.pc + 2) ∧
      (∀ x, decodeWord w = .ok (.sknp x) →
        t.pc = if ∃ k, key = some k ∧ k.toNat = (s.reg x).toNat then s.pc + 2 else s.pc + 4) ∧
      (∀ x, decodeWord w = .ok (.ldVxK x) → key = none →
        t.pc = s.pc ∧ t.mode = .awaitingKey ∧ ∀ r, t.reg r = s.reg r) ∧
      (∀ x k, decodeWord w = .ok (.ldVxK x) → key = some k →
        t.pc = s.pc + 2 ∧ t.mode = .running ∧ (t.reg x).toNat = k.toNat) ∧
      (∀ x kk, decodeWord w = .ok (.rnd x kk) → t.reg x = rand &&& kk))

/-- R135, R149: the host's read ports. `SOUND` is the spec's decision D12; the refusals, of a point out of bounds (log 16)
and of an instant before the last step (log 20), are the model's. -/
def Obligations.HostReadPorts : Prop :=
  (∀ (s : State) (x y : Nat) (hx : x < 64) (hy : y < 32),
    getPoint s x y = .next (FrameBuffer.pixel s.fb ⟨x, hx⟩ ⟨y, hy⟩)) ∧
  (∀ (s : State) (x y : Nat), 64 ≤ x ∨ 32 ≤ y → getPoint s x y = .refused .pointOutOfBounds) ∧
  (∀ (s : State) (t : Nat), s.env.clock ≤ t → s.st.instant ≤ t →
    ∃ b, sound s t = .next b ∧ b.toNat = s.st.value.toNat - (t - s.st.instant) / 16) ∧
  (∀ (s : State) (t : Nat), t < s.env.clock → sound s t = .refused .soundBeforeLastStep)

/-- R15, R16: a step changes no live entry of the call stack; 2nnn writes the entry at SP and 00EE none. The array is the
spec's decision D25 (log 12). -/
def Obligations.LiveStackEntriesAreKept : Prop :=
  ∀ s t : State, step s = .next t → ∀ k : Fin 16, k.val < s.sp.val → t.stack[k] = s.stack[k]
end

