-- ==== Sys2Proof/Laws/State.lean ====
section
/-! SUPPORT. One lemma per field per update of the state, and what the accessors read after an update. No proof about an
instruction unfolds a record update. -/

namespace Sys2Proof.Machine

variable (s : State)

/-! `State.setReg` -/

@[simp] theorem State.v_setReg (x : Reg) (b : Byte) : (s.setReg x b).v = s.v.set x.toNat b x.isLt := rfl
@[simp] theorem State.pc_setReg (x : Reg) (b : Byte) : (s.setReg x b).pc = s.pc := rfl
@[simp] theorem State.i_setReg (x : Reg) (b : Byte) : (s.setReg x b).i = s.i := rfl
@[simp] theorem State.stack_setReg (x : Reg) (b : Byte) : (s.setReg x b).stack = s.stack := rfl
@[simp] theorem State.sp_setReg (x : Reg) (b : Byte) : (s.setReg x b).sp = s.sp := rfl
@[simp] theorem State.mem_setReg (x : Reg) (b : Byte) : (s.setReg x b).mem = s.mem := rfl
@[simp] theorem State.mode_setReg (x : Reg) (b : Byte) : (s.setReg x b).mode = s.mode := rfl
@[simp] theorem State.fb_setReg (x : Reg) (b : Byte) : (s.setReg x b).fb = s.fb := rfl
@[simp] theorem State.dt_setReg (x : Reg) (b : Byte) : (s.setReg x b).dt = s.dt := rfl
@[simp] theorem State.st_setReg (x : Reg) (b : Byte) : (s.setReg x b).st = s.st := rfl
@[simp] theorem State.fault_setReg (x : Reg) (b : Byte) : (s.setReg x b).fault = s.fault := rfl
@[simp] theorem State.diag_setReg (x : Reg) (b : Byte) : (s.setReg x b).diag = s.diag := rfl
@[simp] theorem State.env_setReg (x : Reg) (b : Byte) : (s.setReg x b).env = s.env := rfl

/-! `State.setI` -/

@[simp] theorem State.v_setI (a : Word) : (s.setI a).v = s.v := rfl
@[simp] theorem State.pc_setI (a : Word) : (s.setI a).pc = s.pc := rfl
@[simp] theorem State.i_setI (a : Word) : (s.setI a).i = a := rfl
@[simp] theorem State.stack_setI (a : Word) : (s.setI a).stack = s.stack := rfl
@[simp] theorem State.sp_setI (a : Word) : (s.setI a).sp = s.sp := rfl
@[simp] theorem State.mem_setI (a : Word) : (s.setI a).mem = s.mem := rfl
@[simp] theorem State.mode_setI (a : Word) : (s.setI a).mode = s.mode := rfl
@[simp] theorem State.fb_setI (a : Word) : (s.setI a).fb = s.fb := rfl
@[simp] theorem State.dt_setI (a : Word) : (s.setI a).dt = s.dt := rfl
@[simp] theorem State.st_setI (a : Word) : (s.setI a).st = s.st := rfl
@[simp] theorem State.fault_setI (a : Word) : (s.setI a).fault = s.fault := rfl
@[simp] theorem State.diag_setI (a : Word) : (s.setI a).diag = s.diag := rfl
@[simp] theorem State.env_setI (a : Word) : (s.setI a).env = s.env := rfl

/-! `State.advance` -/

@[simp] theorem State.v_advance : (s.advance).v = s.v := rfl
@[simp] theorem State.pc_advance : (s.advance).pc = s.pc + 2 := rfl
@[simp] theorem State.i_advance : (s.advance).i = s.i := rfl
@[simp] theorem State.stack_advance : (s.advance).stack = s.stack := rfl
@[simp] theorem State.sp_advance : (s.advance).sp = s.sp := rfl
@[simp] theorem State.mem_advance : (s.advance).mem = s.mem := rfl
@[simp] theorem State.mode_advance : (s.advance).mode = s.mode := rfl
@[simp] theorem State.fb_advance : (s.advance).fb = s.fb := rfl
@[simp] theorem State.dt_advance : (s.advance).dt = s.dt := rfl
@[simp] theorem State.st_advance : (s.advance).st = s.st := rfl
@[simp] theorem State.fault_advance : (s.advance).fault = s.fault := rfl
@[simp] theorem State.diag_advance : (s.advance).diag = s.diag := rfl
@[simp] theorem State.env_advance : (s.advance).env = s.env := rfl

/-! `State.rewind` -/

@[simp] theorem State.v_rewind : (s.rewind).v = s.v := rfl
@[simp] theorem State.pc_rewind : (s.rewind).pc = s.pc - 2 := rfl
@[simp] theorem State.i_rewind : (s.rewind).i = s.i := rfl
@[simp] theorem State.stack_rewind : (s.rewind).stack = s.stack := rfl
@[simp] theorem State.sp_rewind : (s.rewind).sp = s.sp := rfl
@[simp] theorem State.mem_rewind : (s.rewind).mem = s.mem := rfl
@[simp] theorem State.mode_rewind : (s.rewind).mode = s.mode := rfl
@[simp] theorem State.fb_rewind : (s.rewind).fb = s.fb := rfl
@[simp] theorem State.dt_rewind : (s.rewind).dt = s.dt := rfl
@[simp] theorem State.st_rewind : (s.rewind).st = s.st := rfl
@[simp] theorem State.fault_rewind : (s.rewind).fault = s.fault := rfl
@[simp] theorem State.diag_rewind : (s.rewind).diag = s.diag := rfl
@[simp] theorem State.env_rewind : (s.rewind).env = s.env := rfl

/-! `State.jump` -/

@[simp] theorem State.v_jump (a : Word) : (s.jump a).v = s.v := rfl
@[simp] theorem State.pc_jump (a : Word) : (s.jump a).pc = a := rfl
@[simp] theorem State.i_jump (a : Word) : (s.jump a).i = s.i := rfl
@[simp] theorem State.stack_jump (a : Word) : (s.jump a).stack = s.stack := rfl
@[simp] theorem State.sp_jump (a : Word) : (s.jump a).sp = s.sp := rfl
@[simp] theorem State.mem_jump (a : Word) : (s.jump a).mem = s.mem := rfl
@[simp] theorem State.mode_jump (a : Word) : (s.jump a).mode = s.mode := rfl
@[simp] theorem State.fb_jump (a : Word) : (s.jump a).fb = s.fb := rfl
@[simp] theorem State.dt_jump (a : Word) : (s.jump a).dt = s.dt := rfl
@[simp] theorem State.st_jump (a : Word) : (s.jump a).st = s.st := rfl
@[simp] theorem State.fault_jump (a : Word) : (s.jump a).fault = s.fault := rfl
@[simp] theorem State.diag_jump (a : Word) : (s.jump a).diag = s.diag := rfl
@[simp] theorem State.env_jump (a : Word) : (s.jump a).env = s.env := rfl

/-! `State.skipIf` -/

@[simp] theorem State.v_skipIf (c : Bool) : (s.skipIf c).v = s.v := by cases c <;> rfl
@[simp] theorem State.pc_skipIf (c : Bool) : (s.skipIf c).pc = if c then s.pc + 2 else s.pc := by cases c <;> rfl
@[simp] theorem State.i_skipIf (c : Bool) : (s.skipIf c).i = s.i := by cases c <;> rfl
@[simp] theorem State.stack_skipIf (c : Bool) : (s.skipIf c).stack = s.stack := by cases c <;> rfl
@[simp] theorem State.sp_skipIf (c : Bool) : (s.skipIf c).sp = s.sp := by cases c <;> rfl
@[simp] theorem State.mem_skipIf (c : Bool) : (s.skipIf c).mem = s.mem := by cases c <;> rfl
@[simp] theorem State.mode_skipIf (c : Bool) : (s.skipIf c).mode = s.mode := by cases c <;> rfl
@[simp] theorem State.fb_skipIf (c : Bool) : (s.skipIf c).fb = s.fb := by cases c <;> rfl
@[simp] theorem State.dt_skipIf (c : Bool) : (s.skipIf c).dt = s.dt := by cases c <;> rfl
@[simp] theorem State.st_skipIf (c : Bool) : (s.skipIf c).st = s.st := by cases c <;> rfl
@[simp] theorem State.fault_skipIf (c : Bool) : (s.skipIf c).fault = s.fault := by cases c <;> rfl
@[simp] theorem State.diag_skipIf (c : Bool) : (s.skipIf c).diag = s.diag := by cases c <;> rfl
@[simp] theorem State.env_skipIf (c : Bool) : (s.skipIf c).env = s.env := by cases c <;> rfl

/-! `State.setFlag` -/

@[simp] theorem State.v_setFlag (f : Bool) : (s.setFlag f).v = s.v.set Config.flagReg.toNat (flagByte f) Config.flagReg.isLt :=
  rfl
@[simp] theorem State.pc_setFlag (f : Bool) : (s.setFlag f).pc = s.pc := rfl
@[simp] theorem State.i_setFlag (f : Bool) : (s.setFlag f).i = s.i := rfl
@[simp] theorem State.stack_setFlag (f : Bool) : (s.setFlag f).stack = s.stack := rfl
@[simp] theorem State.sp_setFlag (f : Bool) : (s.setFlag f).sp = s.sp := rfl
@[simp] theorem State.mem_setFlag (f : Bool) : (s.setFlag f).mem = s.mem := rfl
@[simp] theorem State.mode_setFlag (f : Bool) : (s.setFlag f).mode = s.mode := rfl
@[simp] theorem State.fb_setFlag (f : Bool) : (s.setFlag f).fb = s.fb := rfl
@[simp] theorem State.dt_setFlag (f : Bool) : (s.setFlag f).dt = s.dt := rfl
@[simp] theorem State.st_setFlag (f : Bool) : (s.setFlag f).st = s.st := rfl
@[simp] theorem State.fault_setFlag (f : Bool) : (s.setFlag f).fault = s.fault := rfl
@[simp] theorem State.diag_setFlag (f : Bool) : (s.setFlag f).diag = s.diag := rfl
@[simp] theorem State.env_setFlag (f : Bool) : (s.setFlag f).env = s.env := rfl

/-! `State.setResultThenFlag` -/

@[simp] theorem State.pc_setResultThenFlag (x : Reg) (b : Byte) (f : Bool) : (s.setResultThenFlag x b f).pc = s.pc :=
  rfl
@[simp] theorem State.i_setResultThenFlag (x : Reg) (b : Byte) (f : Bool) : (s.setResultThenFlag x b f).i = s.i := rfl
@[simp] theorem State.stack_setResultThenFlag (x : Reg) (b : Byte) (f : Bool) : (s.setResultThenFlag x b f).stack = s.stack :=
  rfl
@[simp] theorem State.sp_setResultThenFlag (x : Reg) (b : Byte) (f : Bool) : (s.setResultThenFlag x b f).sp = s.sp :=
  rfl
@[simp] theorem State.mem_setResultThenFlag (x : Reg) (b : Byte) (f : Bool) : (s.setResultThenFlag x b f).mem = s.mem :=
  rfl
@[simp] theorem State.mode_setResultThenFlag (x : Reg) (b : Byte) (f : Bool) : (s.setResultThenFlag x b f).mode = s.mode :=
  rfl
@[simp] theorem State.fb_setResultThenFlag (x : Reg) (b : Byte) (f : Bool) : (s.setResultThenFlag x b f).fb = s.fb :=
  rfl
@[simp] theorem State.dt_setResultThenFlag (x : Reg) (b : Byte) (f : Bool) : (s.setResultThenFlag x b f).dt = s.dt :=
  rfl
@[simp] theorem State.st_setResultThenFlag (x : Reg) (b : Byte) (f : Bool) : (s.setResultThenFlag x b f).st = s.st :=
  rfl
@[simp] theorem State.fault_setResultThenFlag (x : Reg) (b : Byte) (f : Bool) : (s.setResultThenFlag x b f).fault = s.fault :=
  rfl
@[simp] theorem State.diag_setResultThenFlag (x : Reg) (b : Byte) (f : Bool) : (s.setResultThenFlag x b f).diag = s.diag :=
  rfl
@[simp] theorem State.env_setResultThenFlag (x : Reg) (b : Byte) (f : Bool) : (s.setResultThenFlag x b f).env = s.env :=
  rfl

/-! `State.setFlagThenResult` -/

@[simp] theorem State.pc_setFlagThenResult (m : ShiftAlias) (x : Reg) (f : Byte → Bool) (op : Byte → Byte) : (s.setFlagThenResult m x f op).pc = s.pc :=
  rfl
@[simp] theorem State.i_setFlagThenResult (m : ShiftAlias) (x : Reg) (f : Byte → Bool) (op : Byte → Byte) : (s.setFlagThenResult m x f op).i = s.i :=
  rfl
@[simp] theorem State.stack_setFlagThenResult (m : ShiftAlias) (x : Reg) (f : Byte → Bool) (op : Byte → Byte) : (s.setFlagThenResult m x f op).stack = s.stack :=
  rfl
@[simp] theorem State.sp_setFlagThenResult (m : ShiftAlias) (x : Reg) (f : Byte → Bool) (op : Byte → Byte) : (s.setFlagThenResult m x f op).sp = s.sp :=
  rfl
@[simp] theorem State.mem_setFlagThenResult (m : ShiftAlias) (x : Reg) (f : Byte → Bool) (op : Byte → Byte) : (s.setFlagThenResult m x f op).mem = s.mem :=
  rfl
@[simp] theorem State.mode_setFlagThenResult (m : ShiftAlias) (x : Reg) (f : Byte → Bool) (op : Byte → Byte) : (s.setFlagThenResult m x f op).mode = s.mode :=
  rfl
@[simp] theorem State.fb_setFlagThenResult (m : ShiftAlias) (x : Reg) (f : Byte → Bool) (op : Byte → Byte) : (s.setFlagThenResult m x f op).fb = s.fb :=
  rfl
@[simp] theorem State.dt_setFlagThenResult (m : ShiftAlias) (x : Reg) (f : Byte → Bool) (op : Byte → Byte) : (s.setFlagThenResult m x f op).dt = s.dt :=
  rfl
@[simp] theorem State.st_setFlagThenResult (m : ShiftAlias) (x : Reg) (f : Byte → Bool) (op : Byte → Byte) : (s.setFlagThenResult m x f op).st = s.st :=
  rfl
@[simp] theorem State.fault_setFlagThenResult (m : ShiftAlias) (x : Reg) (f : Byte → Bool) (op : Byte → Byte) : (s.setFlagThenResult m x f op).fault = s.fault :=
  rfl
@[simp] theorem State.diag_setFlagThenResult (m : ShiftAlias) (x : Reg) (f : Byte → Bool) (op : Byte → Byte) : (s.setFlagThenResult m x f op).diag = s.diag :=
  rfl
@[simp] theorem State.env_setFlagThenResult (m : ShiftAlias) (x : Reg) (f : Byte → Bool) (op : Byte → Byte) : (s.setFlagThenResult m x f op).env = s.env :=
  rfl

/-! `State.setMem` -/

@[simp] theorem State.v_setMem (m : Memory) : (s.setMem m).v = s.v := rfl
@[simp] theorem State.pc_setMem (m : Memory) : (s.setMem m).pc = s.pc := rfl
@[simp] theorem State.i_setMem (m : Memory) : (s.setMem m).i = s.i := rfl
@[simp] theorem State.stack_setMem (m : Memory) : (s.setMem m).stack = s.stack := rfl
@[simp] theorem State.sp_setMem (m : Memory) : (s.setMem m).sp = s.sp := rfl
@[simp] theorem State.mem_setMem (m : Memory) : (s.setMem m).mem = m := rfl
@[simp] theorem State.mode_setMem (m : Memory) : (s.setMem m).mode = s.mode := rfl
@[simp] theorem State.fb_setMem (m : Memory) : (s.setMem m).fb = s.fb := rfl
@[simp] theorem State.dt_setMem (m : Memory) : (s.setMem m).dt = s.dt := rfl
@[simp] theorem State.st_setMem (m : Memory) : (s.setMem m).st = s.st := rfl
@[simp] theorem State.fault_setMem (m : Memory) : (s.setMem m).fault = s.fault := rfl
@[simp] theorem State.diag_setMem (m : Memory) : (s.setMem m).diag = s.diag := rfl
@[simp] theorem State.env_setMem (m : Memory) : (s.setMem m).env = s.env := rfl

/-! `State.setMode` -/

@[simp] theorem State.v_setMode (m : Mode) : (s.setMode m).v = s.v := rfl
@[simp] theorem State.pc_setMode (m : Mode) : (s.setMode m).pc = s.pc := rfl
@[simp] theorem State.i_setMode (m : Mode) : (s.setMode m).i = s.i := rfl
@[simp] theorem State.stack_setMode (m : Mode) : (s.setMode m).stack = s.stack := rfl
@[simp] theorem State.sp_setMode (m : Mode) : (s.setMode m).sp = s.sp := rfl
@[simp] theorem State.mem_setMode (m : Mode) : (s.setMode m).mem = s.mem := rfl
@[simp] theorem State.mode_setMode (m : Mode) : (s.setMode m).mode = m := rfl
@[simp] theorem State.fb_setMode (m : Mode) : (s.setMode m).fb = s.fb := rfl
@[simp] theorem State.dt_setMode (m : Mode) : (s.setMode m).dt = s.dt := rfl
@[simp] theorem State.st_setMode (m : Mode) : (s.setMode m).st = s.st := rfl
@[simp] theorem State.fault_setMode (m : Mode) : (s.setMode m).fault = s.fault := rfl
@[simp] theorem State.diag_setMode (m : Mode) : (s.setMode m).diag = s.diag := rfl
@[simp] theorem State.env_setMode (m : Mode) : (s.setMode m).env = s.env := rfl

/-! `State.setFb` -/

@[simp] theorem State.v_setFb (f : FrameBuffer) : (s.setFb f).v = s.v := rfl
@[simp] theorem State.pc_setFb (f : FrameBuffer) : (s.setFb f).pc = s.pc := rfl
@[simp] theorem State.i_setFb (f : FrameBuffer) : (s.setFb f).i = s.i := rfl
@[simp] theorem State.stack_setFb (f : FrameBuffer) : (s.setFb f).stack = s.stack := rfl
@[simp] theorem State.sp_setFb (f : FrameBuffer) : (s.setFb f).sp = s.sp := rfl
@[simp] theorem State.mem_setFb (f : FrameBuffer) : (s.setFb f).mem = s.mem := rfl
@[simp] theorem State.mode_setFb (f : FrameBuffer) : (s.setFb f).mode = s.mode := rfl
@[simp] theorem State.fb_setFb (f : FrameBuffer) : (s.setFb f).fb = f := rfl
@[simp] theorem State.dt_setFb (f : FrameBuffer) : (s.setFb f).dt = s.dt := rfl
@[simp] theorem State.st_setFb (f : FrameBuffer) : (s.setFb f).st = s.st := rfl
@[simp] theorem State.fault_setFb (f : FrameBuffer) : (s.setFb f).fault = s.fault := rfl
@[simp] theorem State.diag_setFb (f : FrameBuffer) : (s.setFb f).diag = s.diag := rfl
@[simp] theorem State.env_setFb (f : FrameBuffer) : (s.setFb f).env = s.env := rfl

/-! `State.setDelay` -/

@[simp] theorem State.v_setDelay (l : TimerLatch) : (s.setDelay l).v = s.v := rfl
@[simp] theorem State.pc_setDelay (l : TimerLatch) : (s.setDelay l).pc = s.pc := rfl
@[simp] theorem State.i_setDelay (l : TimerLatch) : (s.setDelay l).i = s.i := rfl
@[simp] theorem State.stack_setDelay (l : TimerLatch) : (s.setDelay l).stack = s.stack := rfl
@[simp] theorem State.sp_setDelay (l : TimerLatch) : (s.setDelay l).sp = s.sp := rfl
@[simp] theorem State.mem_setDelay (l : TimerLatch) : (s.setDelay l).mem = s.mem := rfl
@[simp] theorem State.mode_setDelay (l : TimerLatch) : (s.setDelay l).mode = s.mode := rfl
@[simp] theorem State.fb_setDelay (l : TimerLatch) : (s.setDelay l).fb = s.fb := rfl
@[simp] theorem State.dt_setDelay (l : TimerLatch) : (s.setDelay l).dt = l := rfl
@[simp] theorem State.st_setDelay (l : TimerLatch) : (s.setDelay l).st = s.st := rfl
@[simp] theorem State.fault_setDelay (l : TimerLatch) : (s.setDelay l).fault = s.fault := rfl
@[simp] theorem State.diag_setDelay (l : TimerLatch) : (s.setDelay l).diag = s.diag := rfl
@[simp] theorem State.env_setDelay (l : TimerLatch) : (s.setDelay l).env = s.env := rfl

/-! `State.setSound` -/

@[simp] theorem State.v_setSound (l : TimerLatch) : (s.setSound l).v = s.v := rfl
@[simp] theorem State.pc_setSound (l : TimerLatch) : (s.setSound l).pc = s.pc := rfl
@[simp] theorem State.i_setSound (l : TimerLatch) : (s.setSound l).i = s.i := rfl
@[simp] theorem State.stack_setSound (l : TimerLatch) : (s.setSound l).stack = s.stack := rfl
@[simp] theorem State.sp_setSound (l : TimerLatch) : (s.setSound l).sp = s.sp := rfl
@[simp] theorem State.mem_setSound (l : TimerLatch) : (s.setSound l).mem = s.mem := rfl
@[simp] theorem State.mode_setSound (l : TimerLatch) : (s.setSound l).mode = s.mode := rfl
@[simp] theorem State.fb_setSound (l : TimerLatch) : (s.setSound l).fb = s.fb := rfl
@[simp] theorem State.dt_setSound (l : TimerLatch) : (s.setSound l).dt = s.dt := rfl
@[simp] theorem State.st_setSound (l : TimerLatch) : (s.setSound l).st = l := rfl
@[simp] theorem State.fault_setSound (l : TimerLatch) : (s.setSound l).fault = s.fault := rfl
@[simp] theorem State.diag_setSound (l : TimerLatch) : (s.setSound l).diag = s.diag := rfl
@[simp] theorem State.env_setSound (l : TimerLatch) : (s.setSound l).env = s.env := rfl

/-! `State.setEntry` -/

@[simp] theorem State.v_setEntry (k : Fin 16) (a : Word) : (s.setEntry k a).v = s.v := rfl
@[simp] theorem State.pc_setEntry (k : Fin 16) (a : Word) : (s.setEntry k a).pc = s.pc := rfl
@[simp] theorem State.i_setEntry (k : Fin 16) (a : Word) : (s.setEntry k a).i = s.i := rfl
@[simp] theorem State.stack_setEntry (k : Fin 16) (a : Word) : (s.setEntry k a).stack = s.stack.set k.val a k.isLt :=
  rfl
@[simp] theorem State.sp_setEntry (k : Fin 16) (a : Word) : (s.setEntry k a).sp = s.sp := rfl
@[simp] theorem State.mem_setEntry (k : Fin 16) (a : Word) : (s.setEntry k a).mem = s.mem := rfl
@[simp] theorem State.mode_setEntry (k : Fin 16) (a : Word) : (s.setEntry k a).mode = s.mode := rfl
@[simp] theorem State.fb_setEntry (k : Fin 16) (a : Word) : (s.setEntry k a).fb = s.fb := rfl
@[simp] theorem State.dt_setEntry (k : Fin 16) (a : Word) : (s.setEntry k a).dt = s.dt := rfl
@[simp] theorem State.st_setEntry (k : Fin 16) (a : Word) : (s.setEntry k a).st = s.st := rfl
@[simp] theorem State.fault_setEntry (k : Fin 16) (a : Word) : (s.setEntry k a).fault = s.fault := rfl
@[simp] theorem State.diag_setEntry (k : Fin 16) (a : Word) : (s.setEntry k a).diag = s.diag := rfl
@[simp] theorem State.env_setEntry (k : Fin 16) (a : Word) : (s.setEntry k a).env = s.env := rfl

/-! `State.setSp` -/

@[simp] theorem State.v_setSp (n : Fin 17) : (s.setSp n).v = s.v := rfl
@[simp] theorem State.pc_setSp (n : Fin 17) : (s.setSp n).pc = s.pc := rfl
@[simp] theorem State.i_setSp (n : Fin 17) : (s.setSp n).i = s.i := rfl
@[simp] theorem State.stack_setSp (n : Fin 17) : (s.setSp n).stack = s.stack := rfl
@[simp] theorem State.sp_setSp (n : Fin 17) : (s.setSp n).sp = n := rfl
@[simp] theorem State.mem_setSp (n : Fin 17) : (s.setSp n).mem = s.mem := rfl
@[simp] theorem State.mode_setSp (n : Fin 17) : (s.setSp n).mode = s.mode := rfl
@[simp] theorem State.fb_setSp (n : Fin 17) : (s.setSp n).fb = s.fb := rfl
@[simp] theorem State.dt_setSp (n : Fin 17) : (s.setSp n).dt = s.dt := rfl
@[simp] theorem State.st_setSp (n : Fin 17) : (s.setSp n).st = s.st := rfl
@[simp] theorem State.fault_setSp (n : Fin 17) : (s.setSp n).fault = s.fault := rfl
@[simp] theorem State.diag_setSp (n : Fin 17) : (s.setSp n).diag = s.diag := rfl
@[simp] theorem State.env_setSp (n : Fin 17) : (s.setSp n).env = s.env := rfl

/-! `State.markLoaded` -/

@[simp] theorem State.v_markLoaded : (s.markLoaded).v = s.v := rfl
@[simp] theorem State.pc_markLoaded : (s.markLoaded).pc = s.pc := rfl
@[simp] theorem State.i_markLoaded : (s.markLoaded).i = s.i := rfl
@[simp] theorem State.stack_markLoaded : (s.markLoaded).stack = s.stack := rfl
@[simp] theorem State.sp_markLoaded : (s.markLoaded).sp = s.sp := rfl
@[simp] theorem State.mem_markLoaded : (s.markLoaded).mem = s.mem := rfl
@[simp] theorem State.mode_markLoaded : (s.markLoaded).mode = s.mode := rfl
@[simp] theorem State.fb_markLoaded : (s.markLoaded).fb = s.fb := rfl
@[simp] theorem State.dt_markLoaded : (s.markLoaded).dt = s.dt := rfl
@[simp] theorem State.st_markLoaded : (s.markLoaded).st = s.st := rfl
@[simp] theorem State.fault_markLoaded : (s.markLoaded).fault = s.fault := rfl
@[simp] theorem State.diag_markLoaded : (s.markLoaded).diag = s.diag := rfl
@[simp] theorem State.env_markLoaded : (s.markLoaded).env = { s.env with loaded := true } := rfl

/-! `State.latchFault` -/

@[simp] theorem State.v_latchFault (r : FaultRecord) : (s.latchFault r).v = s.v := rfl
@[simp] theorem State.pc_latchFault (r : FaultRecord) : (s.latchFault r).pc = s.pc := rfl
@[simp] theorem State.i_latchFault (r : FaultRecord) : (s.latchFault r).i = s.i := rfl
@[simp] theorem State.stack_latchFault (r : FaultRecord) : (s.latchFault r).stack = s.stack := rfl
@[simp] theorem State.sp_latchFault (r : FaultRecord) : (s.latchFault r).sp = s.sp := rfl
@[simp] theorem State.mem_latchFault (r : FaultRecord) : (s.latchFault r).mem = s.mem := rfl
@[simp] theorem State.mode_latchFault (r : FaultRecord) : (s.latchFault r).mode = s.mode := rfl
@[simp] theorem State.fb_latchFault (r : FaultRecord) : (s.latchFault r).fb = s.fb := rfl
@[simp] theorem State.dt_latchFault (r : FaultRecord) : (s.latchFault r).dt = s.dt := rfl
@[simp] theorem State.st_latchFault (r : FaultRecord) : (s.latchFault r).st = s.st := rfl
@[simp] theorem State.fault_latchFault (r : FaultRecord) : (s.latchFault r).fault = some r := rfl
@[simp] theorem State.diag_latchFault (r : FaultRecord) : (s.latchFault r).diag = s.diag := rfl
@[simp] theorem State.env_latchFault (r : FaultRecord) : (s.latchFault r).env = s.env := rfl

/-! `State.diagnose` -/

@[simp] theorem State.v_diagnose (a w : Word) : (s.diagnose a w).v = s.v := rfl
@[simp] theorem State.pc_diagnose (a w : Word) : (s.diagnose a w).pc = s.pc := rfl
@[simp] theorem State.i_diagnose (a w : Word) : (s.diagnose a w).i = s.i := rfl
@[simp] theorem State.stack_diagnose (a w : Word) : (s.diagnose a w).stack = s.stack := rfl
@[simp] theorem State.sp_diagnose (a w : Word) : (s.diagnose a w).sp = s.sp := rfl
@[simp] theorem State.mem_diagnose (a w : Word) : (s.diagnose a w).mem = s.mem := rfl
@[simp] theorem State.mode_diagnose (a w : Word) : (s.diagnose a w).mode = s.mode := rfl
@[simp] theorem State.fb_diagnose (a w : Word) : (s.diagnose a w).fb = s.fb := rfl
@[simp] theorem State.dt_diagnose (a w : Word) : (s.diagnose a w).dt = s.dt := rfl
@[simp] theorem State.st_diagnose (a w : Word) : (s.diagnose a w).st = s.st := rfl
@[simp] theorem State.fault_diagnose (a w : Word) : (s.diagnose a w).fault = s.fault := rfl
@[simp] theorem State.diag_diagnose (a w : Word) : (s.diagnose a w).diag = s.diag ++ [(a, w)] := rfl
@[simp] theorem State.env_diagnose (a w : Word) : (s.diagnose a w).env = s.env := rfl

/-! `State.endStep` -/

@[simp] theorem State.v_endStep : (s.endStep).v = s.v := rfl
@[simp] theorem State.pc_endStep : (s.endStep).pc = s.pc := rfl
@[simp] theorem State.i_endStep : (s.endStep).i = s.i := rfl
@[simp] theorem State.stack_endStep : (s.endStep).stack = s.stack := rfl
@[simp] theorem State.sp_endStep : (s.endStep).sp = s.sp := rfl
@[simp] theorem State.mem_endStep : (s.endStep).mem = s.mem := rfl
@[simp] theorem State.mode_endStep : (s.endStep).mode = s.mode := rfl
@[simp] theorem State.fb_endStep : (s.endStep).fb = s.fb := rfl
@[simp] theorem State.dt_endStep : (s.endStep).dt = s.dt := rfl
@[simp] theorem State.st_endStep : (s.endStep).st = s.st := rfl
@[simp] theorem State.fault_endStep : (s.endStep).fault = s.fault := rfl
@[simp] theorem State.diag_endStep : (s.endStep).diag = s.diag := rfl
@[simp] theorem State.env_endStep : (s.endStep).env = { s.env with clock := s.now, tick := s.env.tick + 1, script := s.env.script.tail } :=
  rfl

/-! `State.supply` -/

@[simp] theorem State.v_supply (l : List HostInput) : (s.supply l).v = s.v := rfl
@[simp] theorem State.pc_supply (l : List HostInput) : (s.supply l).pc = s.pc := rfl
@[simp] theorem State.i_supply (l : List HostInput) : (s.supply l).i = s.i := rfl
@[simp] theorem State.stack_supply (l : List HostInput) : (s.supply l).stack = s.stack := rfl
@[simp] theorem State.sp_supply (l : List HostInput) : (s.supply l).sp = s.sp := rfl
@[simp] theorem State.mem_supply (l : List HostInput) : (s.supply l).mem = s.mem := rfl
@[simp] theorem State.mode_supply (l : List HostInput) : (s.supply l).mode = s.mode := rfl
@[simp] theorem State.fb_supply (l : List HostInput) : (s.supply l).fb = s.fb := rfl
@[simp] theorem State.dt_supply (l : List HostInput) : (s.supply l).dt = s.dt := rfl
@[simp] theorem State.st_supply (l : List HostInput) : (s.supply l).st = s.st := rfl
@[simp] theorem State.fault_supply (l : List HostInput) : (s.supply l).fault = s.fault := rfl
@[simp] theorem State.diag_supply (l : List HostInput) : (s.supply l).diag = s.diag := rfl
@[simp] theorem State.env_supply (l : List HostInput) : (s.supply l).env = { s.env with script := l } := rfl

/-! Registers -/

@[simp] theorem State.reg_setReg (x y : Reg) (b : Byte) :
    (s.setReg x b).reg y = if x = y then b else s.reg y := by
  simp only [State.reg, State.setReg, Vector.getElem_set, BitVec.toNat_inj]

theorem State.reg_of_v {t : State} (h : t.v = s.v) (x : Reg) : t.reg x = s.reg x := by
  simp only [State.reg, h]

@[simp] theorem State.reg_setI (a : Word) (x : Reg) : (s.setI a).reg x = s.reg x :=
  s.reg_of_v (s.v_setI _) x
@[simp] theorem State.reg_advance (x : Reg) : (s.advance).reg x = s.reg x :=
  s.reg_of_v (s.v_advance) x
@[simp] theorem State.reg_rewind (x : Reg) : (s.rewind).reg x = s.reg x :=
  s.reg_of_v (s.v_rewind) x
@[simp] theorem State.reg_jump (a : Word) (x : Reg) : (s.jump a).reg x = s.reg x :=
  s.reg_of_v (s.v_jump _) x
@[simp] theorem State.reg_skipIf (c : Bool) (x : Reg) : (s.skipIf c).reg x = s.reg x :=
  s.reg_of_v (s.v_skipIf _) x
@[simp] theorem State.reg_setMem (m : Memory) (x : Reg) : (s.setMem m).reg x = s.reg x :=
  s.reg_of_v (s.v_setMem _) x
@[simp] theorem State.reg_setMode (m : Mode) (x : Reg) : (s.setMode m).reg x = s.reg x :=
  s.reg_of_v (s.v_setMode _) x
@[simp] theorem State.reg_setFb (f : FrameBuffer) (x : Reg) : (s.setFb f).reg x = s.reg x :=
  s.reg_of_v (s.v_setFb _) x
@[simp] theorem State.reg_setDelay (l : TimerLatch) (x : Reg) : (s.setDelay l).reg x = s.reg x :=
  s.reg_of_v (s.v_setDelay _) x
@[simp] theorem State.reg_setSound (l : TimerLatch) (x : Reg) : (s.setSound l).reg x = s.reg x :=
  s.reg_of_v (s.v_setSound _) x
@[simp] theorem State.reg_setEntry (k : Fin 16) (a : Word) (x : Reg) : (s.setEntry k a).reg x = s.reg x :=
  s.reg_of_v (s.v_setEntry _ _) x
@[simp] theorem State.reg_setSp (n : Fin 17) (x : Reg) : (s.setSp n).reg x = s.reg x :=
  s.reg_of_v (s.v_setSp _) x
@[simp] theorem State.reg_markLoaded (x : Reg) : (s.markLoaded).reg x = s.reg x :=
  s.reg_of_v (s.v_markLoaded) x
@[simp] theorem State.reg_latchFault (r : FaultRecord) (x : Reg) : (s.latchFault r).reg x = s.reg x :=
  s.reg_of_v (s.v_latchFault _) x
@[simp] theorem State.reg_diagnose (a w : Word) (x : Reg) : (s.diagnose a w).reg x = s.reg x :=
  s.reg_of_v (s.v_diagnose _ _) x
@[simp] theorem State.reg_endStep (x : Reg) : (s.endStep).reg x = s.reg x :=
  s.reg_of_v (s.v_endStep) x
@[simp] theorem State.reg_supply (l : List HostInput) (x : Reg) : (s.supply l).reg x = s.reg x :=
  s.reg_of_v (s.v_supply _) x

@[simp] theorem State.reg_setFlag (f : Bool) (y : Reg) :
    (s.setFlag f).reg y = if Config.flagReg = y then flagByte f else s.reg y :=
  s.reg_setReg _ _ _

/-- R85: the flag is written second and stands. -/
@[simp] theorem State.reg_setResultThenFlag (x : Reg) (b : Byte) (f : Bool) (y : Reg) :
    (s.setResultThenFlag x b f).reg y =
      if Config.flagReg = y then flagByte f else if x = y then b else s.reg y := by
  simp only [State.setResultThenFlag, State.reg_setFlag, State.reg_setReg]

/-- R85: the result is written second and stands. -/
@[simp] theorem State.reg_setFlagThenResult (m : ShiftAlias) (x : Reg) (f : Byte → Bool) (op : Byte → Byte) (y : Reg) :
    (s.setFlagThenResult m x f op).reg y =
      if x = y then
        op (if m = .sequential ∧ Config.flagReg = x then flagByte (f (s.reg x)) else s.reg x)
      else if Config.flagReg = y then flagByte (f (s.reg x)) else s.reg y := by
  cases m <;> simp [State.setFlagThenResult]

/-! The inputs of a step depend on the host's side alone -/

theorem State.input_of_env {t : State} (h : t.env = s.env) : t.input = s.input := by
  simp only [State.input, h]

theorem State.now_of_env {t : State} (h : t.env = s.env) : t.now = s.now := by
  simp only [State.now, s.input_of_env h, h]

theorem State.key_of_env {t : State} (h : t.env = s.env) : t.key = s.key := by
  simp only [State.key, s.input_of_env h]

theorem State.rand_of_env {t : State} (h : t.env = s.env) : t.rand = s.rand := by
  simp only [State.rand, s.input_of_env h]

@[simp] theorem State.now_advance : s.advance.now = s.now := rfl
@[simp] theorem State.key_advance : s.advance.key = s.key := rfl
@[simp] theorem State.rand_advance : s.advance.rand = s.rand := rfl

@[simp] theorem State.input_supply (i : HostInput) (l : List HostInput) : (s.supply (i :: l)).input = i := rfl
@[simp] theorem State.now_supply (i : HostInput) (l : List HostInput) :
    (s.supply (i :: l)).now = s.env.clock + i.elapsed := rfl
@[simp] theorem State.key_supply (i : HostInput) (l : List HostInput) : (s.supply (i :: l)).key = i.key := rfl
@[simp] theorem State.rand_supply (i : HostInput) (l : List HostInput) : (s.supply (i :: l)).rand = i.rand := rfl

/-- The clock of the host's side never runs backwards (R148(g)). -/
theorem State.clock_le_now : s.env.clock ≤ s.now := Nat.le_add_right _ _

end Sys2Proof.Machine
end

