-- ==== Sys2Proof/Laws/Decode.lean ====
section
/-! SUPPORT. The bits of a word put together from its fields, and the fields of a word: what the proofs about the encoder
and the decoder go through. -/

namespace Sys2Proof

/-- The bits of format NNN (R61). -/
theorem wordNnn_bit (c : BitVec 4) (a : Addr12) (k : Nat) :
    (wordNnn c a).getLsbD k = if k < 12 then a.getLsbD k else c.getLsbD (k - 12) := by
  rw [wordNnn, BitVec.getLsbD_append]

/-- The bits of format XKK (R61). -/
theorem wordXkk_bit (c : BitVec 4) (x : Reg) (kk : Byte) (k : Nat) :
    (wordXkk c x kk).getLsbD k =
      if k < 8 then kk.getLsbD k else if k < 12 then x.getLsbD (k - 8) else c.getLsbD (k - 12) := by
  rw [wordXkk, BitVec.getLsbD_append, BitVec.getLsbD_append]
  by_cases h8 : k < 8
  · simp [h8]
  · by_cases h12 : k < 12
    · have : k - 8 < 4 := by omega
      simp [h8, h12, this]
    · have : ¬ k - 8 < 4 := by omega
      have e : k - 8 - 4 = k - 12 := by omega
      simp [h8, h12, this, e]

/-- The bits of formats XY and XYN (R61). -/
theorem wordXyn_bit (c : BitVec 4) (x y : Reg) (n : Nibble) (k : Nat) :
    (wordXyn c x y n).getLsbD k =
      if k < 4 then n.getLsbD k else if k < 8 then y.getLsbD (k - 4)
      else if k < 12 then x.getLsbD (k - 8) else c.getLsbD (k - 12) := by
  rw [wordXyn, BitVec.getLsbD_append, BitVec.getLsbD_append, BitVec.getLsbD_append]
  by_cases h4 : k < 4
  · simp [h4]
  · by_cases h8 : k < 8
    · have : k - 4 < 4 := by omega
      simp [h4, h8, this]
    · have n8 : ¬ k - 4 < 4 := by omega
      have e8 : k - 4 - 4 = k - 8 := by omega
      by_cases h12 : k < 12
      · have : k - 8 < 4 := by omega
        simp [h4, h8, h12, n8, e8, this]
      · have : ¬ k - 8 < 4 := by omega
        have e : k - 8 - 4 = k - 12 := by omega
        simp [h4, h8, h12, n8, e8, this, e]

/-- The bits of a field (R6). -/
theorem fieldC_bit (w : Word) (k : Nat) (h : k < 4) : (fieldC w).getLsbD k = w.getLsbD (12 + k) := by
  simp [fieldC, h]

theorem fieldX_bit (w : Word) (k : Nat) (h : k < 4) : (fieldX w).getLsbD k = w.getLsbD (8 + k) := by
  simp [fieldX, h]

theorem fieldY_bit (w : Word) (k : Nat) (h : k < 4) : (fieldY w).getLsbD k = w.getLsbD (4 + k) := by
  simp [fieldY, h]

theorem fieldN_bit (w : Word) (k : Nat) (h : k < 4) : (fieldN w).getLsbD k = w.getLsbD k := by
  simp [fieldN, h]

theorem fieldKk_bit (w : Word) (k : Nat) (h : k < 8) : (fieldKk w).getLsbD k = w.getLsbD k := by
  simp [fieldKk, h]

theorem fieldNnn_bit (w : Word) (k : Nat) (h : k < 12) : (fieldNnn w).getLsbD k = w.getLsbD k := by
  simp [fieldNnn, h]

/-- The word of the two bytes of a word is the word (R42). -/
theorem wordOfBytes_bytesOfWord (w : Word) :
    wordOfBytes (w.extractLsb' 8 8) (w.extractLsb' 0 8) = w := by
  apply BitVec.eq_of_getLsbD_eq
  intro k hk
  rw [wordOfBytes, BitVec.getLsbD_append]
  by_cases h : k < 8
  · simp [h]
  · have h' : k - 8 < 8 := by omega
    have e : 8 + (k - 8) = k := by omega
    simp [h, h', e]

/-- A nibble is one of sixteen. -/
theorem nibble_cases : ∀ c : BitVec 4, c = 0 ∨ c = 1 ∨ c = 2 ∨ c = 3 ∨ c = 4 ∨ c = 5 ∨ c = 6 ∨ c = 7 ∨
    c = 8 ∨ c = 9 ∨ c = 10 ∨ c = 11 ∨ c = 12 ∨ c = 13 ∨ c = 14 ∨ c = 15 := by decide

/-- What the decoder answers, class by class (R63). -/
theorem decodeWord_by_class (w : Word) :
    (fieldC w = 0x0 ∧ decodeWord w = decode0 w) ∨ (fieldC w = 0x1 ∧ decodeWord w = .ok (.jp (fieldNnn w))) ∨
    (fieldC w = 0x2 ∧ decodeWord w = .ok (.call (fieldNnn w))) ∨
    (fieldC w = 0x3 ∧ decodeWord w = .ok (.seKk (fieldX w) (fieldKk w))) ∨
    (fieldC w = 0x4 ∧ decodeWord w = .ok (.sneKk (fieldX w) (fieldKk w))) ∨
    (fieldC w = 0x5 ∧ decodeWord w = decode5 w) ∨
    (fieldC w = 0x6 ∧ decodeWord w = .ok (.ldKk (fieldX w) (fieldKk w))) ∨
    (fieldC w = 0x7 ∧ decodeWord w = .ok (.addKk (fieldX w) (fieldKk w))) ∨
    (fieldC w = 0x8 ∧ decodeWord w = decode8 w) ∨ (fieldC w = 0x9 ∧ decodeWord w = decode9 w) ∨
    (fieldC w = 0xA ∧ decodeWord w = .ok (.ldI (fieldNnn w))) ∨
    (fieldC w = 0xB ∧ decodeWord w = .ok (.jpV0 (fieldNnn w))) ∨
    (fieldC w = 0xC ∧ decodeWord w = .ok (.rnd (fieldX w) (fieldKk w))) ∨
    (fieldC w = 0xD ∧ decodeWord w = .ok (.drw (fieldX w) (fieldY w) (fieldN w))) ∨
    (fieldC w = 0xE ∧ decodeWord w = decodeE w) ∨ (fieldC w = 0xF ∧ decodeWord w = decodeF w) := by
  rcases nibble_cases (fieldC w) with h | h | h | h | h | h | h | h | h | h | h | h | h | h | h | h <;>
    simp [decodeWord, h]

/-- A word of a class with sub-opcodes is refused by name alone. -/
theorem decode_class_error (w : Word) (e : DecodeError) (h : decode0 w = .error e ∨ decode5 w = .error e ∨
    decode8 w = .error e ∨ decode9 w = .error e ∨ decodeE w = .error e ∨ decodeF w = .error e) :
    e = .unrecognized w := by
  unfold decode0 decode5 decode8 decode9 decodeE decodeF at h
  rcases h with h | h | h | h | h | h <;>
    (repeat' split at h) <;> cases h <;> rfl

/-- The only way a word is refused is by name (R65). -/
theorem decodeWord_error (w : Word) (e : DecodeError) (h : decodeWord w = .error e) : e = .unrecognized w := by
  rcases decodeWord_by_class w with ⟨-, d⟩ | ⟨-, d⟩ | ⟨-, d⟩ | ⟨-, d⟩ | ⟨-, d⟩ | ⟨-, d⟩ | ⟨-, d⟩ | ⟨-, d⟩ |
    ⟨-, d⟩ | ⟨-, d⟩ | ⟨-, d⟩ | ⟨-, d⟩ | ⟨-, d⟩ | ⟨-, d⟩ | ⟨-, d⟩ | ⟨-, d⟩ <;> rw [d] at h <;>
    exact decode_class_error w e (by tauto)

/-- The decoder on the bytes of a word is the decoder on the word. -/
theorem decode_bytesOfWord (w : Word) (rest : List Byte) :
    decode (bytesOfWord w ++ rest) =
      match decodeWord w with
      | .ok i => .ok (i, rest)
      | .error e => .error e := by
  cases h : decodeWord w <;> simp [bytesOfWord, decode, wordOfBytes_bytesOfWord, h]

end Sys2Proof
end

