-- ==== Sys2Proof/Laws/Memory.lean ====
section
/-! SUPPORT. Memory: what a read gives after a write, and that every operation keeps the canonical form. -/

namespace Sys2Proof.Machine

/-! Reading after writing -/

theorem Memory.read_erase (m : Memory) (a c : Nat) :
    Memory.read (Memory.erase m a) c = if a = c then Memory.unlisted a else Memory.read m c := by
  induction m with
  | nil =>
    by_cases h : a = c
    · rw [if_pos h, h]
      rfl
    · rw [if_neg h]
      rfl
  | cons e m ih =>
    obtain ⟨k, b⟩ := e
    by_cases hk : k = a
    · rw [Memory.erase, if_pos hk, ih]
      by_cases h : a = c
      · rw [if_pos h, if_pos h]
      · rw [if_neg h, if_neg h, Memory.read, if_neg (fun e => h (hk ▸ e))]
    · rw [Memory.erase, if_neg hk, Memory.read, ih, Memory.read]
      by_cases hc : k = c
      · rw [if_pos hc, if_pos hc, if_neg (fun e => hk (hc.trans e.symm))]
      · rw [if_neg hc, if_neg hc]

theorem Memory.read_insert (m : Memory) (a : Nat) (b : Byte) (c : Nat) :
    Memory.read (Memory.insert m a b) c = if a = c then b else Memory.read m c := by
  induction m with
  | nil => simp [Memory.insert, Memory.read]
  | cons e m ih =>
    obtain ⟨k, d⟩ := e
    rw [Memory.insert]
    by_cases hlt : a < k
    · rw [if_pos hlt, Memory.read]
    · rw [if_neg hlt]
      by_cases hk : a = k
      · rw [if_pos hk, Memory.read, Memory.read]
        by_cases hc : a = c
        · rw [if_pos hc, if_pos hc]
        · rw [if_neg hc, if_neg hc, if_neg (fun e => hc (hk.trans e))]
      · rw [if_neg hk, Memory.read, ih, Memory.read]
        by_cases hc : k = c
        · rw [if_pos hc, if_pos hc, if_neg (fun e => hk (e.trans hc.symm))]
        · rw [if_neg hc, if_neg hc]

/-- A read gives the byte last written there, and what it gave before elsewhere (R45, R50(b)). -/
@[simp] theorem Memory.read_write (m : Memory) (a : Nat) (b : Byte) (c : Nat) :
    Memory.read (Memory.write m a b) c = if a = c then b else Memory.read m c := by
  unfold Memory.write
  split
  · rename_i h
    rw [Memory.read_erase]
    simp [Memory.unlisted, h]
  · exact Memory.read_insert m a b c

/-- The same for a run of bytes (R43). -/
theorem Memory.read_writeBytes (m : Memory) (a : Nat) (bs : List Byte) (c : Nat) :
    Memory.read (Memory.writeBytes m a bs) c =
      if h : a ≤ c ∧ c < a + bs.length then bs[c - a]'(by omega) else Memory.read m c := by
  induction bs generalizing m a with
  | nil =>
    have : ¬ (a ≤ c ∧ c < a + ([] : List Byte).length) := by simp
    rw [dif_neg this]
    rfl
  | cons b bs ih =>
    rw [Memory.writeBytes, ih]
    by_cases hac : a = c
    · subst hac
      simp
    · by_cases h : a + 1 ≤ c ∧ c < a + 1 + bs.length
      · have h' : a ≤ c ∧ c < a + (b :: bs).length := by simp; omega
        rw [dif_pos h, dif_pos h']
        have e : c - a = (c - (a + 1)) + 1 := by omega
        simp only [e, List.getElem_cons_succ]
      · have h' : ¬ (a ≤ c ∧ c < a + (b :: bs).length) := by simp; omega
        rw [dif_neg h, dif_neg h', Memory.read_write, if_neg hac]

/-- A byte outside the run is left alone. -/
theorem Memory.read_writeBytes_of_not_mem (m : Memory) (a : Nat) (bs : List Byte) (c : Nat)
    (h : c < a ∨ a + bs.length ≤ c) : Memory.read (Memory.writeBytes m a bs) c = Memory.read m c := by
  rw [Memory.read_writeBytes, dif_neg (by omega)]

@[simp] theorem Memory.length_readBytes (m : Memory) (a n : Nat) : (Memory.readBytes m a n).length = n := by
  simp [Memory.readBytes]

@[simp] theorem Memory.getElem_readBytes (m : Memory) (a n k : Nat) (h : k < (Memory.readBytes m a n).length) :
    (Memory.readBytes m a n)[k] = Memory.read m (a + k) := by
  simp [Memory.readBytes]

/-! The canonical form -/

theorem Memory.risingFrom_mono (m : Memory) (lo lo' : Nat) (h : lo' ≤ lo) (hm : Memory.risingFrom lo m = true) :
    Memory.risingFrom lo' m = true := by
  cases m with
  | nil => rfl
  | cons e m =>
    obtain ⟨k, b⟩ := e
    simp only [Memory.risingFrom, Bool.and_eq_true, decide_eq_true_eq] at hm ⊢
    exact ⟨⟨⟨h.trans hm.1.1.1, hm.1.1.2⟩, hm.1.2⟩, hm.2⟩

theorem Memory.risingFrom_erase (m : Memory) (lo a : Nat) (hm : Memory.risingFrom lo m = true) :
    Memory.risingFrom lo (Memory.erase m a) = true := by
  induction m generalizing lo with
  | nil => rfl
  | cons e m ih =>
    obtain ⟨k, b⟩ := e
    simp only [Memory.risingFrom, Bool.and_eq_true, decide_eq_true_eq] at hm
    by_cases hk : k = a
    · rw [Memory.erase, if_pos hk]
      exact ih lo (Memory.risingFrom_mono m (k + 1) lo (by omega) hm.2)
    · rw [Memory.erase, if_neg hk]
      simp only [Memory.risingFrom, Bool.and_eq_true, decide_eq_true_eq]
      exact ⟨hm.1, ih (k + 1) hm.2⟩

theorem Memory.risingFrom_insert (m : Memory) (lo a : Nat) (b : Byte) (hlo : lo ≤ a) (ha : a < Config.memSize)
    (hb : Memory.resetByte? a ≠ some b) (hm : Memory.risingFrom lo m = true) :
    Memory.risingFrom lo (Memory.insert m a b) = true := by
  induction m generalizing lo with
  | nil => simp [Memory.insert, Memory.risingFrom, hlo, ha, hb]
  | cons e m ih =>
    obtain ⟨k, c⟩ := e
    simp only [Memory.risingFrom, Bool.and_eq_true, decide_eq_true_eq] at hm
    rw [Memory.insert]
    split_ifs with hlt hk
    · simp only [Memory.risingFrom, Bool.and_eq_true, decide_eq_true_eq]
      exact ⟨⟨⟨hlo, ha⟩, hb⟩, ⟨⟨hlt, hm.1.1.2⟩, hm.1.2⟩, hm.2⟩
    · simp only [Memory.risingFrom, Bool.and_eq_true, decide_eq_true_eq]
      exact ⟨⟨⟨hlo, ha⟩, hb⟩, hk ▸ hm.2⟩
    · simp only [Memory.risingFrom, Bool.and_eq_true, decide_eq_true_eq]
      exact ⟨hm.1, ih (k + 1) (by omega) hm.2⟩

/-- A write to an address of Memory keeps the canonical form. -/
theorem Memory.wf_write (m : Memory) (a : Nat) (b : Byte) (ha : a < Config.memSize) (hm : m.wf = true) :
    Memory.wf (Memory.write m a b) = true := by
  unfold Memory.write
  split
  · exact Memory.risingFrom_erase m 0 a hm
  · rename_i h
    exact Memory.risingFrom_insert m 0 a b (Nat.zero_le _) ha h hm

/-- So does a run of bytes inside Memory. -/
theorem Memory.wf_writeBytes (m : Memory) (a : Nat) (bs : List Byte) (ha : a + bs.length ≤ Config.memSize)
    (hm : m.wf = true) : Memory.wf (Memory.writeBytes m a bs) = true := by
  induction bs generalizing m a with
  | nil => exact hm
  | cons b bs ih =>
    rw [Memory.writeBytes]
    rw [List.length_cons] at ha
    exact ih _ _ (by omega) (Memory.wf_write m a b (by omega) hm)

/-- The memory after reset is canonical. -/
theorem Memory.wf_reset : State.reset.mem.wf = true := rfl

end Sys2Proof.Machine
end

