-- ==== Sys2Proof/Laws/Ops.lean ====
section
/-! SUPPORT. One lemma per shared operation that says all it can do; a proof about an instruction cites it. -/

namespace Sys2Proof.Machine

variable (s : State)

/-! Memory accesses -/

/-- The bounds check of R46. -/
theorem inRange_iff (base : Word) (n : Nat) : inRange base n = true ↔ n = 0 ∨ base.toNat + n ≤ 4096 := by
  simp only [inRange, Bool.or_eq_true, decide_eq_true_eq]
  rfl

/-- `memRead` answers the bytes exactly when the access is in range (R8, R46). -/
theorem memRead_eq_some (base : Word) (n : Nat) (bs : List Byte) :
    memRead s base n = some bs ↔ (n = 0 ∨ base.toNat + n ≤ 4096) ∧ bs = s.mem.readBytes base.toNat n := by
  rw [← inRange_iff base n]
  unfold memRead
  by_cases h : inRange base n = true <;> simp [h, eq_comm]

theorem memRead_eq_none (base : Word) (n : Nat) : memRead s base n = none ↔ n ≠ 0 ∧ 4096 < base.toNat + n := by
  have e : (n ≠ 0 ∧ 4096 < base.toNat + n) ↔ ¬ inRange base n = true := by
    rw [inRange_iff]
    omega
  rw [e]
  unfold memRead
  by_cases h : inRange base n = true <;> simp [h]

/-- `memWrite` writes the bytes, and only Memory, exactly when the access is in range (R8, R46). -/
theorem memWrite_eq_some (base : Word) (bs : List Byte) (t : State) :
    memWrite s base bs = some t ↔
      (bs.length = 0 ∨ base.toNat + bs.length ≤ 4096) ∧ t = s.setMem (s.mem.writeBytes base.toNat bs) := by
  rw [← inRange_iff base bs.length]
  unfold memWrite
  by_cases h : inRange base bs.length = true <;> simp [h, eq_comm]

theorem memWrite_eq_none (base : Word) (bs : List Byte) :
    memWrite s base bs = none ↔ bs.length ≠ 0 ∧ 4096 < base.toNat + bs.length := by
  have e : (bs.length ≠ 0 ∧ 4096 < base.toNat + bs.length) ↔ ¬ inRange base bs.length = true := by
    rw [inRange_iff]
    omega
  rw [e]
  unfold memWrite
  by_cases h : inRange base bs.length = true <;> simp [h]

/-- A checked write keeps the canonical form. -/
theorem memWrite_wf (base : Word) (bs : List Byte) (t : State) (h : memWrite s base bs = some t)
    (hm : s.mem.wf = true) : t.mem.wf = true := by
  obtain ⟨hr, rfl⟩ := (memWrite_eq_some s base bs t).1 h
  rcases hr with h0 | h
  · rw [List.length_eq_zero_iff] at h0
    subst h0
    exact hm
  · exact Memory.wf_writeBytes _ _ _ h hm

/-! The call stack -/

/-- `push` (R16): exactly when SP is below 16, the entry at SP is written and SP goes up. -/
theorem push_eq_some (a : Word) (t : State) :
    push s a = some t ↔ ∃ h : s.sp.val < 16,
      t = (s.setEntry ⟨s.sp.val, h⟩ a).setSp ⟨s.sp.val + 1, by omega⟩ := by
  unfold push
  split <;> simp_all [eq_comm]

theorem push_eq_none (a : Word) : push s a = none ↔ s.sp.val = 16 := by
  unfold push
  split <;> simp <;> omega

/-- `pop` (R16): exactly when SP is above 0, SP goes down and the entry there is the answer. -/
theorem pop_eq_some (a : Word) (t : State) :
    pop s = some (a, t) ↔ ∃ h : 0 < s.sp.val,
      a = s.stack[s.sp.val - 1]'(by omega) ∧ t = s.setSp ⟨s.sp.val - 1, by omega⟩ := by
  unfold pop
  split <;> simp_all [eq_comm]

theorem pop_eq_none : pop s = none ↔ s.sp.val = 0 := by
  unfold pop
  split <;> simp <;> omega

/-! Several registers -/

@[simp] theorem State.length_regsUpTo (x : Reg) : (s.regsUpTo x).length = x.toNat + 1 := by
  have : x.toNat < 16 := x.isLt
  simp [State.regsUpTo]
  omega

@[simp] theorem State.getElem_regsUpTo (x : Reg) (k : Nat) (h : k < (s.regsUpTo x).length) :
    (s.regsUpTo x)[k] = s.reg (BitVec.ofNat 4 k) := by
  have hx : x.toNat < 16 := x.isLt
  rw [State.length_regsUpTo] at h
  have e : (BitVec.ofNat 4 k).toNat = k := by
    rw [BitVec.toNat_ofNat]
    omega
  simp [State.regsUpTo, State.reg, e]

/-- `setRegsFrom` writes registers alone (R126). -/
theorem State.setRegsFrom_eq (k : Nat) (bs : List Byte) : ∃ v, s.setRegsFrom k bs = { s with v := v } := by
  induction bs generalizing s k with
  | nil => exact ⟨s.v, rfl⟩
  | cons b bs ih =>
    obtain ⟨v, hv⟩ := ih (s.setReg (BitVec.ofNat 4 k) b) (k + 1)
    exact ⟨v, hv⟩

@[simp] theorem State.pc_setRegsFrom (k : Nat) (bs : List Byte) : (s.setRegsFrom k bs).pc = s.pc := by
  obtain ⟨v, h⟩ := s.setRegsFrom_eq k bs
  rw [h]

@[simp] theorem State.i_setRegsFrom (k : Nat) (bs : List Byte) : (s.setRegsFrom k bs).i = s.i := by
  obtain ⟨v, h⟩ := s.setRegsFrom_eq k bs
  rw [h]

@[simp] theorem State.stack_setRegsFrom (k : Nat) (bs : List Byte) : (s.setRegsFrom k bs).stack = s.stack := by
  obtain ⟨v, h⟩ := s.setRegsFrom_eq k bs
  rw [h]

@[simp] theorem State.sp_setRegsFrom (k : Nat) (bs : List Byte) : (s.setRegsFrom k bs).sp = s.sp := by
  obtain ⟨v, h⟩ := s.setRegsFrom_eq k bs
  rw [h]

@[simp] theorem State.mem_setRegsFrom (k : Nat) (bs : List Byte) : (s.setRegsFrom k bs).mem = s.mem := by
  obtain ⟨v, h⟩ := s.setRegsFrom_eq k bs
  rw [h]

@[simp] theorem State.mode_setRegsFrom (k : Nat) (bs : List Byte) : (s.setRegsFrom k bs).mode = s.mode := by
  obtain ⟨v, h⟩ := s.setRegsFrom_eq k bs
  rw [h]

@[simp] theorem State.fb_setRegsFrom (k : Nat) (bs : List Byte) : (s.setRegsFrom k bs).fb = s.fb := by
  obtain ⟨v, h⟩ := s.setRegsFrom_eq k bs
  rw [h]

@[simp] theorem State.dt_setRegsFrom (k : Nat) (bs : List Byte) : (s.setRegsFrom k bs).dt = s.dt := by
  obtain ⟨v, h⟩ := s.setRegsFrom_eq k bs
  rw [h]

@[simp] theorem State.st_setRegsFrom (k : Nat) (bs : List Byte) : (s.setRegsFrom k bs).st = s.st := by
  obtain ⟨v, h⟩ := s.setRegsFrom_eq k bs
  rw [h]

@[simp] theorem State.fault_setRegsFrom (k : Nat) (bs : List Byte) : (s.setRegsFrom k bs).fault = s.fault := by
  obtain ⟨v, h⟩ := s.setRegsFrom_eq k bs
  rw [h]

@[simp] theorem State.diag_setRegsFrom (k : Nat) (bs : List Byte) : (s.setRegsFrom k bs).diag = s.diag := by
  obtain ⟨v, h⟩ := s.setRegsFrom_eq k bs
  rw [h]

@[simp] theorem State.env_setRegsFrom (k : Nat) (bs : List Byte) : (s.setRegsFrom k bs).env = s.env := by
  obtain ⟨v, h⟩ := s.setRegsFrom_eq k bs
  rw [h]

/-- ... each the byte of its place, and the registers outside the run keep their values (R126). -/
theorem State.reg_setRegsFrom (k : Nat) (bs : List Byte) (hk : k + bs.length ≤ 16) (x : Reg) :
    (s.setRegsFrom k bs).reg x =
      if h : k ≤ x.toNat ∧ x.toNat < k + bs.length then bs[x.toNat - k]'(by omega) else s.reg x := by
  induction bs generalizing s k with
  | nil =>
    have : ¬ (k ≤ x.toNat ∧ x.toNat < k + ([] : List Byte).length) := by simp
    rw [dif_neg this]
    rfl
  | cons b bs ih =>
    rw [List.length_cons] at hk
    have e : (BitVec.ofNat 4 k).toNat = k := by
      rw [BitVec.toNat_ofNat]
      omega
    rw [State.setRegsFrom, ih _ _ (by omega)]
    by_cases hx : x.toNat = k
    · have h1 : ¬ (k + 1 ≤ x.toNat ∧ x.toNat < k + 1 + bs.length) := by omega
      have h2 : k ≤ x.toNat ∧ x.toNat < k + (b :: bs).length := by simp; omega
      have h3 : BitVec.ofNat 4 k = x := BitVec.eq_of_toNat_eq (e.trans hx.symm)
      rw [dif_neg h1, dif_pos h2, State.reg_setReg, if_pos h3]
      simp [hx]
    · by_cases h : k + 1 ≤ x.toNat ∧ x.toNat < k + 1 + bs.length
      · have h2 : k ≤ x.toNat ∧ x.toNat < k + (b :: bs).length := by simp; omega
        have e2 : x.toNat - k = (x.toNat - (k + 1)) + 1 := by omega
        rw [dif_pos h, dif_pos h2]
        simp only [e2, List.getElem_cons_succ]
      · have h2 : ¬ (k ≤ x.toNat ∧ x.toNat < k + (b :: bs).length) := by simp; omega
        have h3 : ¬ BitVec.ofNat 4 k = x := fun he => hx (by rw [← he, e])
        rw [dif_neg h, dif_neg h2, State.reg_setReg, if_neg h3]

/-! Addresses and values -/

@[simp] theorem toNat_extAddr (a : Addr12) : (extAddr a).toNat = a.toNat := by
  have := a.isLt
  simp [extAddr]
  omega

@[simp] theorem toNat_extByte (b : Byte) : (extByte b).toNat = b.toNat := by
  have := b.isLt
  simp [extByte]
  omega

/-- Bnnn's sum is exact (R98). -/
@[simp] theorem toNat_jumpOffset (a : Addr12) (b : Byte) : (jumpOffset a b).toNat = a.toNat + b.toNat := by
  have := a.isLt
  have := b.isLt
  rw [jumpOffset, BitVec.toNat_add, toNat_extAddr, toNat_extByte]
  omega

/-- Fx29's product is exact (R123). -/
@[simp] theorem toNat_glyphAddr (b : Byte) : (glyphAddr b).toNat = b.toNat * 5 := by
  have := b.isLt
  simp [glyphAddr, Config.glyphBytes]
  omega

/-- Fx1E with the mode `fault` (R122): the exact sum, or nothing past 0xFFF. -/
theorem addIndex_fault (i : Word) (b : Byte) (a : Word) :
    addIndex .fault i b = some a ↔ i.toNat + b.toNat ≤ 0xFFF ∧ a.toNat = i.toNat + b.toNat := by
  simp only [addIndex]
  split
  · rename_i h
    constructor
    · intro e
      cases e
      refine ⟨h, ?_⟩
      rw [BitVec.toNat_ofNat]
      omega
    · rintro ⟨-, e⟩
      rw [← e, BitVec.ofNat_toNat, BitVec.setWidth_eq]
  · rename_i h
    simp [h]

theorem addIndex_fault_none (i : Word) (b : Byte) : addIndex .fault i b = none ↔ 0xFFF < i.toNat + b.toNat := by
  simp only [addIndex]
  split <;> simp <;> omega

/-- The effective value as a number (R146): it fits a byte. -/
@[simp] theorem toNat_eff (t : TimerLatch) (now : Nat) :
    (eff t now).toNat = t.value.toNat - (now - t.instant) / 16 := by
  have := t.value.isLt
  simp only [eff, Config.timerMs, BitVec.toNat_ofNat]
  omega

/-! Fetch -/

/-- The fetch (R81, R47): exactly when `PC` is at most 0xFFE, the two bytes there, the first high-order. -/
theorem fetch_eq_some (w : Word) :
    fetch s = some w ↔ s.pc.toNat ≤ 0xFFE ∧
      w = wordOfBytes (s.mem.read s.pc.toNat) (s.mem.read (s.pc.toNat + 1)) := by
  unfold fetch
  split <;> simp_all [eq_comm]

theorem fetch_eq_none : fetch s = none ↔ 0xFFE < s.pc.toNat := by
  unfold fetch
  split <;> simp <;> omega

/-- The fetch depends on Memory and `PC` alone. -/
theorem fetch_congr {t : State} (hm : t.mem = s.mem) (hp : t.pc = s.pc) : fetch t = fetch s := by
  simp only [fetch, hm, hp]

/-! Taking a fault -/

/-- Taking a fault answers a next state: the latch set, the advance undone, everything else as it was (R86, R150). -/
theorem raise_eq (c : Cause) (w : Word) :
    raise c w s = .next { s with pc := s.pc - 2, fault := some { cause := c, addr := s.pc - 2, word := some w } } := rfl

/-- A fault raised after the advance is the state before it with the latch set. -/
theorem raise_advance (c : Cause) (w : Word) :
    raise c w s.advance = .next { s with fault := some { cause := c, addr := s.pc, word := some w } } := by
  simp [raise_eq, State.advance]

/-- The fetch fault changes the latch alone (R155). -/
theorem raiseFetch_eq :
    raiseFetch s = .next { s with fault := some { cause := .fetchOutOfRange, addr := s.pc, word := none } } := rfl

/-- The host's side moves on around an outcome, and the outcome stays what it was. -/
theorem endStepOf_eq_next (r : Result) (t : State) :
    endStepOf r = .next t ↔ ∃ u, r = .next u ∧ t = u.endStep := by
  cases r <;> simp [endStepOf, eq_comm]

end Sys2Proof.Machine
end

