-- ==== Sys2Proof/Laws/Display.lean ====
section
/-! SUPPORT. The frame buffer, pixel by pixel. -/

namespace Sys2Proof.Machine

/-- Two frame buffers with the same pixels are the same. -/
theorem FrameBuffer.ext_pixel {f g : FrameBuffer}
    (h : ∀ px py, FrameBuffer.pixel f px py = FrameBuffer.pixel g px py) : f = g := by
  apply Vector.ext
  intro py hpy
  apply BitVec.eq_of_getLsbD_eq
  intro px hpx
  exact h ⟨px, hpx⟩ ⟨py, hpy⟩

@[simp] theorem pixel_clearFb (px : Fin 64) (py : Fin 32) : FrameBuffer.pixel clearFb px py = false := by
  simp [FrameBuffer.pixel, clearFb]

/-- Flipping a pixel inverts that pixel alone (R134(b)). -/
@[simp] theorem pixel_flip (f : FrameBuffer) (px qx : Fin 64) (py qy : Fin 32) :
    FrameBuffer.pixel (FrameBuffer.flip f px py) qx qy =
      (FrameBuffer.pixel f qx qy ^^ (decide (qx = px) && decide (qy = py))) := by
  by_cases hy : qy = py
  · subst hy
    by_cases hx : qx = px
    · subst hx
      simp [FrameBuffer.pixel, FrameBuffer.flip]
    · have : ¬ qx.val = px.val := fun e => hx (Fin.ext e)
      simp [FrameBuffer.pixel, FrameBuffer.flip, BitVec.getElem_twoPow, hx, this]
  · have : ¬ py.val = qy.val := fun e => hy (Fin.ext e.symm)
    simp [FrameBuffer.pixel, FrameBuffer.flip, this, hy]

/-- One sprite bit (R133): its pixel is inverted, and the collision flag is set if the pixel was on, when it is 1. -/
theorem drawBit_eq (x : Nat) (py : Fin 32) (row : Byte) (d : FrameBuffer × Bool) (col : Nat) :
    (drawBit x py row d col).2 = (d.2 || (spriteBit row col && FrameBuffer.pixel d.1 (pixelX x col) py)) ∧
    ∀ qx qy, FrameBuffer.pixel (drawBit x py row d col).1 qx qy =
      (FrameBuffer.pixel d.1 qx qy ^^ (spriteBit row col && (decide (qx = pixelX x col) && decide (qy = py)))) := by
  unfold drawBit
  by_cases h : spriteBit row col = true
  · simp [h]
  · simp [h]

/-- One row is its eight columns. -/
theorem drawRow_eq (x : Nat) (py : Fin 32) (row : Byte) (d : FrameBuffer × Bool) :
    drawRow x py row d = [0, 1, 2, 3, 4, 5, 6, 7].foldl (drawBit x py row) d := rfl

end Sys2Proof.Machine
end

