-- ==== Sys2Proof/Laws/Step.lean ====
section
/-! SUPPORT. What a step can do, said once. -/

namespace Sys2Proof.Machine

/-- The four things a step can do (R80): nothing when halted; the fetch fault; the diagnostic of an unrecognized word; or
the instruction at `PC`, run with `PC` advanced. -/
theorem step_cases (s : State) :
    (s.fault ≠ none ∧ step s = .next s) ∨
    (s.fault = none ∧ fetch s = none ∧ step s = endStepOf (raiseFetch s)) ∨
    (∃ w, s.fault = none ∧ fetch s = some w ∧ decodeWord w = .error (.unrecognized w) ∧
      step s = .next (s.advance.diagnose s.pc w).endStep) ∨
    (∃ w i, s.fault = none ∧ fetch s = some w ∧ decodeWord w = .ok i ∧ step s = endStepOf (exec i s.advance)) := by
  unfold step
  cases hf : s.fault with
  | some r => simp
  | none =>
    cases hw : fetch s with
    | none => simp
    | some w =>
      cases hd : decodeWord w with
      | ok i => simp [hd]
      | error e =>
        have he := decodeWord_error w e hd
        subst he
        simp [hd, endStepOf]

end Sys2Proof.Machine
end

