-- ==== Sys2Proof/Laws/Exec.lean ====
section
/-! SUPPORT. What an instruction answers, said once for all 34: it raises its fault, or it has its effect. -/

namespace Sys2Proof.Machine

/-- The instruction makes its one check (R161) and it fails with this cause. -/
def FailsWith (i : Instr) (s : State) (c : Cause) : Prop :=
  match i with
  | .call _ => c = .stackOverflow ∧ s.sp.val = 16
  | .ret => c = .stackUnderflow ∧ s.sp.val = 0
  | .addI x => c = .addrRegOverflow ∧ 0xFFF < s.i.toNat + (s.reg x).toNat
  | .ldB _ => c = .memOutOfRange ∧ 0xFFF < s.i.toNat + 2
  | .stRegs x | .ldRegs x => c = .memOutOfRange ∧ 0xFFF < s.i.toNat + x.toNat
  | .drw _ _ n => c = .memOutOfRange ∧ n.toNat ≠ 0 ∧ 0xFFF < s.i.toNat + n.toNat - 1
  | .cls | .jp _ | .jpV0 _ | .seKk _ _ | .sneKk _ _ | .seVy _ _ | .sneVy _ _ | .ldKk _ _ | .addKk _ _ | .ldVy _ _
  | .orVy _ _ | .andVy _ _ | .xorVy _ _ | .addVy _ _ | .sub _ _ | .shr _ _ | .subn _ _ | .shl _ _ | .ldI _
  | .rnd _ _ | .skp _ | .sknp _ | .ldVxDt _ | .ldVxK _ | .ldDtVx _ | .ldStVx _ | .ldF _ => False

/-- The instruction's check holds, if it makes one, and t is s with its effect, in the named updates. -/
def Effect (i : Instr) (s t : State) : Prop :=
  match i with
  | .cls => t = s.setFb clearFb
  | .ret => ∃ h : 0 < s.sp.val, t = (s.setSp ⟨s.sp.val - 1, by omega⟩).jump (s.stack[s.sp.val - 1]'(by omega))
  | .jp n => t = s.jump (extAddr n)
  | .call n => ∃ h : s.sp.val < 16,
      t = ((s.setEntry ⟨s.sp.val, h⟩ s.pc).setSp ⟨s.sp.val + 1, by omega⟩).jump (extAddr n)
  | .seKk x kk => t = s.skipIf (s.reg x == kk)
  | .sneKk x kk => t = s.skipIf (s.reg x != kk)
  | .seVy x y => t = s.skipIf (s.reg x == s.reg y)
  | .sneVy x y => t = s.skipIf (s.reg x != s.reg y)
  | .ldKk x kk => t = s.setReg x kk
  | .addKk x kk => t = s.setReg x (s.reg x + kk)
  | .ldVy x y => t = s.setReg x (s.reg y)
  | .orVy x y => t = s.setReg x (s.reg x ||| s.reg y)
  | .andVy x y => t = s.setReg x (s.reg x &&& s.reg y)
  | .xorVy x y => t = s.setReg x (s.reg x ^^^ s.reg y)
  | .addVy x y => t = s.setResultThenFlag x (s.reg x + s.reg y) (carryOut (s.reg x) (s.reg y))
  | .sub x y => t = s.setResultThenFlag x (s.reg x - s.reg y) (noBorrow (s.reg x) (s.reg y))
  | .subn x y => t = s.setResultThenFlag x (s.reg y - s.reg x) (noBorrow (s.reg y) (s.reg x))
  | .shr x _ => t = s.setFlagThenResult .sampled x lowBit fun b => b >>> 1
  | .shl x _ => t = s.setFlagThenResult .sampled x highBit fun b => b <<< 1
  | .ldI n => t = s.setI (extAddr n)
  | .jpV0 n => t = s.jump (jumpOffset n (s.reg 0))
  | .rnd x kk => t = s.setReg x (s.rand &&& kk)
  | .drw x y n => (n.toNat = 0 ∨ s.i.toNat + n.toNat ≤ 4096) ∧
      t = (s.setFb (draw s.fb (s.reg x).toNat (s.reg y).toNat (s.mem.readBytes s.i.toNat n.toNat)).1).setFlag
        (draw s.fb (s.reg x).toNat (s.reg y).toNat (s.mem.readBytes s.i.toNat n.toNat)).2
  | .skp x => t = s.skipIf (keyIs s.key (s.reg x))
  | .sknp x => t = s.skipIf (!keyIs s.key (s.reg x))
  | .ldVxDt x => t = s.setReg x (eff s.dt s.now)
  | .ldVxK x => (s.key = none ∧ t = s.rewind.setMode .awaitingKey) ∨
      ∃ k, s.key = some k ∧ t = (s.setReg x (k.zeroExtend 8)).setMode .running
  | .ldDtVx x => t = s.setDelay (setTimer (s.reg x) s.now)
  | .ldStVx x => t = s.setSound (setTimer (s.reg x) s.now)
  | .addI x => ∃ a : Word, s.i.toNat + (s.reg x).toNat ≤ 0xFFF ∧ a.toNat = s.i.toNat + (s.reg x).toNat ∧ t = s.setI a
  | .ldF x => t = s.setI (glyphAddr (s.reg x))
  | .ldB x => s.i.toNat + 3 ≤ 4096 ∧ t = s.setMem (s.mem.writeBytes s.i.toNat (bcdDigits (s.reg x)))
  | .stRegs x => s.i.toNat + (x.toNat + 1) ≤ 4096 ∧ t = s.setMem (s.mem.writeBytes s.i.toNat (s.regsUpTo x))
  | .ldRegs x => s.i.toNat + (x.toNat + 1) ≤ 4096 ∧
      t = s.setRegsFrom 0 (s.mem.readBytes s.i.toNat (x.toNat + 1))

/-- Every instruction answers a next state: with its fault taken (R86), or with its effect. -/
theorem exec_answers (i : Instr) (s : State) : ∃ t, exec i s = .next t ∧
    ((∃ c, FailsWith i s c ∧ t = s.rewind.latchFault ⟨c, s.pc - 2, some (encode i)⟩) ∨ Effect i s t) := by
  cases i <;> simp only [exec]
  case ret =>
    unfold execRet; split
    · rename_i hh; rw [pop_eq_none] at hh; exact ⟨_, rfl, .inl ⟨_, ⟨rfl, hh⟩, rfl⟩⟩
    · rename_i hh; obtain ⟨h0, rfl, rfl⟩ := (pop_eq_some _ _ _).1 hh
      exact ⟨_, rfl, .inr ⟨h0, rfl⟩⟩
  case call =>
    unfold execCall; split
    · rename_i hh; rw [push_eq_none] at hh; exact ⟨_, rfl, .inl ⟨_, ⟨rfl, hh⟩, rfl⟩⟩
    · rename_i hh; obtain ⟨h0, rfl⟩ := (push_eq_some _ _ _).1 hh
      exact ⟨_, rfl, .inr ⟨h0, rfl⟩⟩
  case addI =>
    unfold execAddI; split
    · rename_i hh; rw [Config.fx1eMode, addIndex_fault_none] at hh
      exact ⟨_, rfl, .inl ⟨_, ⟨rfl, hh⟩, rfl⟩⟩
    · rename_i hh; rw [Config.fx1eMode, addIndex_fault] at hh
      exact ⟨_, rfl, .inr ⟨_, hh.1, hh.2, rfl⟩⟩
  case ldB =>
    unfold execLdB; split
    · rename_i hh; rw [memWrite_eq_none] at hh; simp [bcdDigits] at hh
      exact ⟨_, rfl, .inl ⟨_, ⟨rfl, by omega⟩, rfl⟩⟩
    · rename_i hh; obtain ⟨h0, rfl⟩ := (memWrite_eq_some _ _ _ _).1 hh
      exact ⟨_, rfl, .inr ⟨by simpa [bcdDigits] using h0, rfl⟩⟩
  case stRegs x =>
    unfold execStRegs; split
    · rename_i hh; rw [memWrite_eq_none] at hh; simp at hh
      exact ⟨_, rfl, .inl ⟨_, ⟨rfl, by omega⟩, rfl⟩⟩
    · rename_i hh; obtain ⟨h0, rfl⟩ := (memWrite_eq_some _ _ _ _).1 hh
      exact ⟨_, rfl, .inr ⟨by simpa using h0, rfl⟩⟩
  case ldRegs x =>
    unfold execLdRegs; split
    · rename_i hh; rw [memRead_eq_none] at hh; simp at hh
      exact ⟨_, rfl, .inl ⟨_, ⟨rfl, by omega⟩, rfl⟩⟩
    · rename_i bs hh; obtain ⟨h0, rfl⟩ := (memRead_eq_some _ _ _ _).1 hh
      exact ⟨_, rfl, .inr ⟨by simpa using h0, rfl⟩⟩
  case drw =>
    unfold execDrw; split
    · rename_i hh; rw [memRead_eq_none] at hh
      exact ⟨_, rfl, .inl ⟨_, ⟨rfl, hh.1, by omega⟩, rfl⟩⟩
    · rename_i bs hh; obtain ⟨h0, rfl⟩ := (memRead_eq_some _ _ _ _).1 hh
      exact ⟨_, rfl, .inr ⟨h0, rfl⟩⟩
  case ldVxK =>
    cases hk : s.key with
    | none => exact ⟨_, by rw [execLdVxK, awaitKey, hk], .inr (.inl ⟨hk, rfl⟩)⟩
    | some k => exact ⟨_, by rw [execLdVxK, awaitKey, hk], .inr (.inr ⟨k, hk, rfl⟩)⟩
  all_goals exact ⟨_, rfl, .inr rfl⟩

/-- What a next state of an instruction is. -/
theorem exec_cases (i : Instr) (s t : State) (h : exec i s = .next t) :
    (∃ c, FailsWith i s c ∧ t = s.rewind.latchFault ⟨c, s.pc - 2, some (encode i)⟩) ∨ Effect i s t := by
  obtain ⟨u, hu, hc⟩ := exec_answers i s
  rw [hu] at h
  cases h
  exact hc

/-- The effect determines the answer: an instruction whose check holds answers the state its effect names. -/
theorem exec_of_not_fails (i : Instr) (s : State) (hn : ∀ c, ¬ FailsWith i s c) :
    ∃ t, exec i s = .next t ∧ Effect i s t := by
  obtain ⟨t, ht, ⟨c, hc, _⟩ | he⟩ := exec_answers i s
  · exact absurd hc (hn c)
  · exact ⟨t, ht, he⟩

/-- An instruction whose check fails answers the fault taken. -/
theorem exec_of_fails (i : Instr) (s : State) (c : Cause) (hf : FailsWith i s c) :
    exec i s = .next (s.rewind.latchFault ⟨c, s.pc - 2, some (encode i)⟩) := by
  obtain ⟨t, ht, ⟨c', hc', rfl⟩ | he⟩ := exec_answers i s
  · cases i <;> simp only [FailsWith] at hf hc' <;> obtain ⟨rfl, -⟩ := hf <;> obtain ⟨rfl, -⟩ := hc' <;> exact ht
  · exfalso
    cases i <;> simp only [FailsWith] at hf <;> simp only [Effect] at he
    case ret => obtain ⟨h0, _⟩ := he; omega
    case call => obtain ⟨h0, _⟩ := he; omega
    all_goals grind

end Sys2Proof.Machine
end

