-- ==== Sys2Proof/Laws/HostPort.lean ====
section
/-! SUPPORT. What the host's operations answer, said once for each. -/

namespace Sys2Proof.Machine

/-- `Load(image)`: refused after an earlier load and after a step, no state for too long an image, else the image from
0x200 up and the record that it was done. -/
theorem load_cases (image : List Byte) (s : State) :
    (s.env.loaded = true ∧ load image s = .refused .loadedAlready) ∨
    (s.env.loaded = false ∧ s.env.tick ≠ 0 ∧ load image s = .refused .loadAfterFirstStep) ∨
    (s.env.loaded = false ∧ s.env.tick = 0 ∧ Config.progMax < image.length ∧ load image s = .fault .imageTooLarge) ∨
    (s.env.loaded = false ∧ s.env.tick = 0 ∧ image.length ≤ Config.progMax ∧
      load image s = .next (s.setMem (s.mem.writeBytes Config.progBase image)).markLoaded) := by
  unfold load
  cases hl : s.env.loaded with
  | true => exact .inl ⟨rfl, if_pos rfl⟩
  | false =>
    rw [if_neg Bool.false_ne_true]
    by_cases ht : s.env.tick = 0
    · rw [if_neg (not_not_intro ht)]
      by_cases hi : Config.progMax < image.length
      · exact .inr (.inr (.inl ⟨rfl, ht, hi, if_pos hi⟩))
      · exact .inr (.inr (.inr ⟨rfl, ht, by omega, if_neg hi⟩))
    · exact .inr (.inl ⟨rfl, ht, if_pos ht⟩)

/-- `Step(now, key, rand)`: refused when `now` decreases, nothing on a halted block, else the step on the supplied
inputs. -/
theorem stepWith_cases (now : Nat) (key : Option Key) (rand : Byte) (s : State) :
    (now < s.env.clock ∧ stepWith now key rand s = .refused .nowDecreases) ∨
    (s.env.clock ≤ now ∧ s.fault ≠ none ∧ stepWith now key rand s = .next s) ∨
    (s.env.clock ≤ now ∧ s.fault = none ∧
      stepWith now key rand s = step (s.supply [{ elapsed := now - s.env.clock, key := key, rand := rand }])) := by
  unfold stepWith
  by_cases hc : now < s.env.clock
  · exact .inl ⟨hc, if_pos hc⟩
  · rw [if_neg hc]
    cases hf : s.fault with
    | some r => exact .inr (.inl ⟨by omega, by simp, by simp⟩)
    | none => exact .inr (.inr ⟨by omega, rfl, by simp⟩)

/-- The `now` a step reads is the one it was given. -/
theorem now_of_supplied (now : Nat) (key : Option Key) (rand : Byte) (s : State) (h : s.env.clock ≤ now) :
    (s.supply [{ elapsed := now - s.env.clock, key := key, rand := rand }]).now = now := by
  simp only [State.now_supply]
  omega

/-- `SOUND(t)`: refused before the last step's `now`, else the effective value. -/
theorem sound_cases (s : State) (t : Nat) :
    (t < s.env.clock ∧ sound s t = .refused .soundBeforeLastStep) ∨
    (s.env.clock ≤ t ∧ sound s t = .next (eff s.st t)) := by
  unfold sound
  split
  · exact .inl ⟨‹_›, rfl⟩
  · exact .inr ⟨by omega, rfl⟩

end Sys2Proof.Machine
end

