-- ==== Sys2Proof/Laws/PerInstr.lean ====
section
/-! SUPPORT. A statement about every instruction as syntax, one lemma per constructor: its operands leave the fixed bits
of its format alone (R61), and its encoding is its row of the opcode map with the operands in their places (R64). -/

namespace Sys2Proof.Laws

/-- The operands fit, and the two ways of writing the word (side by side, and shifted into place) agree. -/
def OperandsFit.Statement (i : Instr) : Prop :=
  i.wellFormed = true ∧ encode i = (i.pattern ||| i.operandBits)

/-- An address leaves the class nibble alone. -/
theorem addr_fits (a : Addr12) : (Format.nnn.operandsFit (a.zeroExtend 16)) = true := by
  simp only [Format.operandsFit, Format.mask, beq_iff_eq]
  apply BitVec.eq_of_getLsbD_eq
  intro k hk
  have : k < 16 := hk
  interval_cases k <;> simp

/-- A register and an immediate leave the class nibble alone. -/
theorem regByte_fits (x : Reg) (kk : Byte) :
    (Format.xkk.operandsFit ((x.zeroExtend 16 <<< 8) ||| kk.zeroExtend 16)) = true := by
  simp only [Format.operandsFit, Format.mask, beq_iff_eq]
  apply BitVec.eq_of_getLsbD_eq
  intro k hk
  have : k < 16 := hk
  interval_cases k <;> simp

/-- Two registers leave the class nibble and the low nibble alone. -/
theorem regReg_fits (x y : Reg) :
    (Format.xy.operandsFit ((x.zeroExtend 16 <<< 8) ||| (y.zeroExtend 16 <<< 4))) = true := by
  simp only [Format.operandsFit, Format.mask, beq_iff_eq]
  apply BitVec.eq_of_getLsbD_eq
  intro k hk
  have : k < 16 := hk
  interval_cases k <;> simp

/-- Two registers and a row count leave the class nibble alone. -/
theorem regRegNibble_fits (x y : Reg) (n : Nibble) :
    (Format.xyn.operandsFit ((x.zeroExtend 16 <<< 8) ||| (y.zeroExtend 16 <<< 4) ||| n.zeroExtend 16)) = true := by
  simp only [Format.operandsFit, Format.mask, beq_iff_eq]
  apply BitVec.eq_of_getLsbD_eq
  intro k hk
  have : k < 16 := hk
  interval_cases k <;> simp

/-- A register leaves the class nibble and the low byte alone. -/
theorem reg_fits (x : Reg) : (Format.x.operandsFit (x.zeroExtend 16 <<< 8)) = true := by
  revert x
  decide

/-- Format NNN, side by side and shifted into place. -/
theorem wordNnn_eq (c : BitVec 4) (a : Addr12) :
    wordNnn c a = ((c.zeroExtend 16 <<< 12) ||| a.zeroExtend 16) := by
  apply BitVec.eq_of_getLsbD_eq
  intro k hk
  have : k < 16 := hk
  rw [wordNnn_bit]
  interval_cases k <;> simp

/-- Format XKK, side by side and shifted into place. -/
theorem wordXkk_eq (c : BitVec 4) (x : Reg) (kk : Byte) :
    wordXkk c x kk = ((c.zeroExtend 16 <<< 12) ||| (x.zeroExtend 16 <<< 8) ||| kk.zeroExtend 16) := by
  apply BitVec.eq_of_getLsbD_eq
  intro k hk
  have : k < 16 := hk
  rw [wordXkk_bit]
  interval_cases k <;> simp

/-- Format XYN, side by side and shifted into place. -/
theorem wordXyn_eq (c : BitVec 4) (x y : Reg) (n : Nibble) :
    wordXyn c x y n =
      ((c.zeroExtend 16 <<< 12) ||| (x.zeroExtend 16 <<< 8) ||| (y.zeroExtend 16 <<< 4) ||| n.zeroExtend 16) := by
  apply BitVec.eq_of_getLsbD_eq
  intro k hk
  have : k < 16 := hk
  rw [wordXyn_bit]
  interval_cases k <;> simp

/-- Format XY: the low nibble is a sub-opcode beside the class. -/
theorem xy_word (c n : BitVec 4) (x y : Reg) :
    wordXyn c x y n = (((c.zeroExtend 16 <<< 12) ||| n.zeroExtend 16) |||
      ((x.zeroExtend 16 <<< 8) ||| (y.zeroExtend 16 <<< 4))) := by
  rw [wordXyn_eq]; ac_rfl

/-- Format XYN: the class beside the operands. -/
theorem xyn_word (c : BitVec 4) (x y : Reg) (n : Nibble) :
    wordXyn c x y n = ((c.zeroExtend 16 <<< 12) |||
      ((x.zeroExtend 16 <<< 8) ||| (y.zeroExtend 16 <<< 4) ||| n.zeroExtend 16)) := by
  rw [wordXyn_eq]; ac_rfl

/-- Format X: the low byte is a sub-opcode beside the class. -/
theorem x_word (c : BitVec 4) (b : Byte) (x : Reg) :
    wordXkk c x b = (((c.zeroExtend 16 <<< 12) ||| b.zeroExtend 16) ||| (x.zeroExtend 16 <<< 8)) := by
  rw [wordXkk_eq]; ac_rfl

theorem OperandsFit.cls : OperandsFit.Statement .cls := by
  constructor <;> decide

theorem OperandsFit.ret : OperandsFit.Statement .ret := by
  constructor <;> decide

theorem OperandsFit.jp (nnn : Addr12) : OperandsFit.Statement (.jp nnn) := ⟨addr_fits nnn, wordNnn_eq _ nnn⟩

theorem OperandsFit.call (nnn : Addr12) : OperandsFit.Statement (.call nnn) := ⟨addr_fits nnn, wordNnn_eq _ nnn⟩

theorem OperandsFit.seKk (x : Reg) (kk : Byte) : OperandsFit.Statement (.seKk x kk) :=
  ⟨regByte_fits x kk, (wordXkk_eq _ x kk).trans (BitVec.or_assoc _ _ _)⟩

theorem OperandsFit.sneKk (x : Reg) (kk : Byte) : OperandsFit.Statement (.sneKk x kk) :=
  ⟨regByte_fits x kk, (wordXkk_eq _ x kk).trans (BitVec.or_assoc _ _ _)⟩

theorem OperandsFit.seVy (x y : Reg) : OperandsFit.Statement (.seVy x y) :=
  ⟨regReg_fits x y, xy_word _ _ x y⟩

theorem OperandsFit.ldKk (x : Reg) (kk : Byte) : OperandsFit.Statement (.ldKk x kk) :=
  ⟨regByte_fits x kk, (wordXkk_eq _ x kk).trans (BitVec.or_assoc _ _ _)⟩

theorem OperandsFit.addKk (x : Reg) (kk : Byte) : OperandsFit.Statement (.addKk x kk) :=
  ⟨regByte_fits x kk, (wordXkk_eq _ x kk).trans (BitVec.or_assoc _ _ _)⟩

theorem OperandsFit.ldVy (x y : Reg) : OperandsFit.Statement (.ldVy x y) :=
  ⟨regReg_fits x y, xy_word _ _ x y⟩

theorem OperandsFit.orVy (x y : Reg) : OperandsFit.Statement (.orVy x y) :=
  ⟨regReg_fits x y, xy_word _ _ x y⟩

theorem OperandsFit.andVy (x y : Reg) : OperandsFit.Statement (.andVy x y) :=
  ⟨regReg_fits x y, xy_word _ _ x y⟩

theorem OperandsFit.xorVy (x y : Reg) : OperandsFit.Statement (.xorVy x y) :=
  ⟨regReg_fits x y, xy_word _ _ x y⟩

theorem OperandsFit.addVy (x y : Reg) : OperandsFit.Statement (.addVy x y) :=
  ⟨regReg_fits x y, xy_word _ _ x y⟩

theorem OperandsFit.sub (x y : Reg) : OperandsFit.Statement (.sub x y) :=
  ⟨regReg_fits x y, xy_word _ _ x y⟩

theorem OperandsFit.shr (x y : Reg) : OperandsFit.Statement (.shr x y) :=
  ⟨regReg_fits x y, xy_word _ _ x y⟩

theorem OperandsFit.subn (x y : Reg) : OperandsFit.Statement (.subn x y) :=
  ⟨regReg_fits x y, xy_word _ _ x y⟩

theorem OperandsFit.shl (x y : Reg) : OperandsFit.Statement (.shl x y) :=
  ⟨regReg_fits x y, xy_word _ _ x y⟩

theorem OperandsFit.sneVy (x y : Reg) : OperandsFit.Statement (.sneVy x y) :=
  ⟨regReg_fits x y, xy_word _ _ x y⟩

theorem OperandsFit.ldI (nnn : Addr12) : OperandsFit.Statement (.ldI nnn) := ⟨addr_fits nnn, wordNnn_eq _ nnn⟩

theorem OperandsFit.jpV0 (nnn : Addr12) : OperandsFit.Statement (.jpV0 nnn) := ⟨addr_fits nnn, wordNnn_eq _ nnn⟩

theorem OperandsFit.rnd (x : Reg) (kk : Byte) : OperandsFit.Statement (.rnd x kk) :=
  ⟨regByte_fits x kk, (wordXkk_eq _ x kk).trans (BitVec.or_assoc _ _ _)⟩

theorem OperandsFit.drw (x y : Reg) (n : Nibble) : OperandsFit.Statement (.drw x y n) :=
  ⟨regRegNibble_fits x y n, xyn_word _ x y n⟩

theorem OperandsFit.skp (x : Reg) : OperandsFit.Statement (.skp x) := ⟨reg_fits x, x_word _ _ x⟩

theorem OperandsFit.sknp (x : Reg) : OperandsFit.Statement (.sknp x) := ⟨reg_fits x, x_word _ _ x⟩

theorem OperandsFit.ldVxDt (x : Reg) : OperandsFit.Statement (.ldVxDt x) := ⟨reg_fits x, x_word _ _ x⟩

theorem OperandsFit.ldVxK (x : Reg) : OperandsFit.Statement (.ldVxK x) := ⟨reg_fits x, x_word _ _ x⟩

theorem OperandsFit.ldDtVx (x : Reg) : OperandsFit.Statement (.ldDtVx x) := ⟨reg_fits x, x_word _ _ x⟩

theorem OperandsFit.ldStVx (x : Reg) : OperandsFit.Statement (.ldStVx x) := ⟨reg_fits x, x_word _ _ x⟩

theorem OperandsFit.addI (x : Reg) : OperandsFit.Statement (.addI x) := ⟨reg_fits x, x_word _ _ x⟩

theorem OperandsFit.ldF (x : Reg) : OperandsFit.Statement (.ldF x) := ⟨reg_fits x, x_word _ _ x⟩

theorem OperandsFit.ldB (x : Reg) : OperandsFit.Statement (.ldB x) := ⟨reg_fits x, x_word _ _ x⟩

theorem OperandsFit.stRegs (x : Reg) : OperandsFit.Statement (.stRegs x) := ⟨reg_fits x, x_word _ _ x⟩

theorem OperandsFit.ldRegs (x : Reg) : OperandsFit.Statement (.ldRegs x) := ⟨reg_fits x, x_word _ _ x⟩

end Sys2Proof.Laws
end

