-- ==== Sys2Proof/Tests/Slice0.lean ====
section
/-! SUPPORT. The model's own tests: words and one-step vectors of spec/95_test_vectors.md (the T-ids are its), and a
witness for every statement that has premises, at the boundary values of its clauses. -/

namespace Sys2Proof.Tests

open Sys2Proof.Machine Sys2Proof.Claims

/-! The helpers -/

/-- Reset, with the inputs of one step: `now` 0, no key, random byte 0xA7. -/
def base : State := State.reset.supply [{ elapsed := 0, key := none, rand := 0xA7 }]

/-- `base` with other inputs. -/
def withInputs (elapsed : Nat) (key : Option Key) : State := State.reset.supply [{ elapsed := elapsed, key := key, rand := 0 }]

/-- The answer is a next state that meets p. -/
def gives (r : Result) (p : State → Bool) : Bool :=
  match r with
  | .next t => p t
  | .fault _ => false
  | .refused _ => false

/-- One step on s with the word w placed at its `PC` answers a next state that meets p. -/
def ends (w : Nat) (s : State) (p : State → Bool) : Bool := gives (step (s.withFetchWord 16 w)) p

/-- s with bytes written to Memory. -/
def withBytes (s : State) (a : Nat) (bs : List Byte) : State := s.setMem (s.mem.writeBytes a bs)

/-- `SOUND(t)` is offered, with this value. -/
def soundIs (s : State) (t : Nat) (b : Byte) : Bool :=
  match sound s t with
  | .next x => x == b
  | .fault _ => false
  | .refused _ => false

/-- s with its first two registers set. -/
def regs2 (a b : Byte) (s : State) : State := (s.setReg 1 a).setReg 2 b

/-- The word decodes to the instruction. -/
def isInstr (w : Word) (i : Instr) : Bool := decide (decodeWord w = .ok i)

/-- The word is unrecognized. -/
def isNone (w : Word) : Bool := decide (decodeWord w = .error (.unrecognized w))

/-! Well-formedness: each format refuses operand bits that touch its fixed bits -/

theorem test_op_refuses : Format.operandsFit .op 0x0100 = false := by decide
theorem test_nnn_refuses : Format.operandsFit .nnn 0x1ABC = false := by decide
theorem test_xkk_refuses : Format.operandsFit .xkk 0x2A7F = false := by decide
theorem test_xy_refuses : Format.operandsFit .xy 0x0AB1 = false := by decide
theorem test_xyn_refuses : Format.operandsFit .xyn 0x8121 = false := by decide
theorem test_x_refuses : Format.operandsFit .x 0x0121 = false := by decide
theorem test_wellFormed_accepts : Instr.wellFormed (.drw 15 15 15) = true := by decide

/-! Decoding: every instruction's word, written out from R61 and R64 -/

theorem test_decode_display : isInstr 0x00E0 .cls ∧ isInstr 0xD12F (.drw 1 2 15) := by decide
theorem test_decode_jumps : isInstr 0x00EE .ret ∧ isInstr 0x1ABC (.jp 0xABC) ∧ isInstr 0x2300 (.call 0x300) ∧
    isInstr 0xB7FE (.jpV0 0x7FE) := by decide
theorem test_decode_skips : isInstr 0x3A7F (.seKk 10 0x7F) ∧ isInstr 0x432B (.sneKk 3 0x2B) ∧
    isInstr 0x5AB0 (.seVy 10 11) ∧ isInstr 0x9120 (.sneVy 1 2) := by decide
theorem test_decode_immediates : isInstr 0x61AB (.ldKk 1 0xAB) ∧ isInstr 0x7F01 (.addKk 15 1) ∧
    isInstr 0xC10F (.rnd 1 0x0F) := by decide
theorem test_decode_class8 : isInstr 0x8120 (.ldVy 1 2) ∧ isInstr 0x8121 (.orVy 1 2) ∧ isInstr 0x8122 (.andVy 1 2) ∧
    isInstr 0x8123 (.xorVy 1 2) ∧ isInstr 0x8AB4 (.addVy 10 11) ∧ isInstr 0x8125 (.sub 1 2) ∧
    isInstr 0x8AF6 (.shr 10 15) ∧ isInstr 0x8127 (.subn 1 2) ∧ isInstr 0x8A0E (.shl 10 0) := by decide
theorem test_decode_keys : isInstr 0xE19E (.skp 1) ∧ isInstr 0xE1A1 (.sknp 1) ∧ isInstr 0xF10A (.ldVxK 1) := by decide
theorem test_decode_timers : isInstr 0xF107 (.ldVxDt 1) ∧ isInstr 0xF115 (.ldDtVx 1) ∧ isInstr 0xF118 (.ldStVx 1) := by
  decide
theorem test_decode_memory : isInstr 0xA300 (.ldI 0x300) ∧ isInstr 0xF11E (.addI 1) ∧ isInstr 0xF129 (.ldF 1) ∧
    isInstr 0xF133 (.ldB 1) ∧ isInstr 0xF155 (.stRegs 1) ∧ isInstr 0xF165 (.ldRegs 1) := by decide
/-- T-E3 -/
theorem test_unrecognized_class0 : isNone 0x00E1 ∧ isNone 0x01E0 ∧ isNone 0x0000 ∧ isNone 0x0123 ∧ isNone 0x0FFF := by
  decide
/-- T-E7, T-E9 -/
theorem test_unrecognized_nibble : isNone 0x5AB1 ∧ isNone 0x9ABF ∧ isNone 0x8AB8 ∧ isNone 0x8AB9 ∧ isNone 0x8ABA ∧
    isNone 0x8ABB ∧ isNone 0x8ABC ∧ isNone 0x8ABD ∧ isNone 0x8ABF := by decide
/-- T-E13, T-E15 -/
theorem test_unrecognized_byte : isNone 0xE19F ∧ isNone 0xE1A0 ∧ isNone 0xE000 ∧ isNone 0xF100 ∧ isNone 0xF11F ∧
    isNone 0xF175 ∧ isNone 0xF185 ∧ isNone 0xF1FF ∧ isNone 0xF130 := by decide
/-- R42, S7: the first byte is the high-order one. -/
theorem test_decode_bytes : decode [0x60, 0x0A, 0x70] = .ok (.ldKk 0 0x0A, [0x70]) ∧ encodeBytes (.ldKk 0 0x0A) = [0x60, 0x0A] ∧
    decodeTableWord 16 0x600A = some (.ldKk 0 0x0A) ∧ decodeTableWord 16 0x0123 = none := by decide

/-! Control flow -/

/-- T-C1, T-C2 -/
theorem test_jp : ends 0x1ABC base (fun t => t.pc == 0xABC) ∧ ends 0x1204 (base.jump 0x204) (fun t => t.pc == 0x204) := by
  decide
/-- T-C3 -/
theorem test_call : ends 0x2300 (base.jump 0x208) (fun t => t.stack[0] == 0x20A && t.sp == 1 && t.pc == 0x300) := by decide
/-- T-C6, step 17 -/
theorem test_call_overflow : ends 0x2200 (base.setSp 16)
    (fun t => t.fault == some ⟨.stackOverflow, 0x200, some 0x2200⟩ && t.sp == 16 && t.pc == 0x200) := by decide
/-- T-C4 -/
theorem test_ret : ends 0x00EE (((base.setEntry 0 0x20A).setSp 1).jump 0x300) (fun t => t.sp == 0 && t.pc == 0x20A) := by
  decide
/-- T-C5 -/
theorem test_ret_underflow : ends 0x00EE base
    (fun t => t.fault == some ⟨.stackUnderflow, 0x200, some 0x00EE⟩ && t.sp == 0 && t.pc == 0x200) := by decide
/-- T-C7 -/
theorem test_seKk : ends 0x332A (base.setReg 3 0x2A) (fun t => t.pc == 0x204) ∧
    ends 0x332B (base.setReg 3 0x2A) (fun t => t.pc == 0x202) := by decide
/-- T-C8 -/
theorem test_sneKk : ends 0x432A (base.setReg 3 0x2A) (fun t => t.pc == 0x202) ∧
    ends 0x432B (base.setReg 3 0x2A) (fun t => t.pc == 0x204) := by decide
/-- T-C9, T-C10 -/
theorem test_seVy : ends 0x5120 (regs2 7 7 base) (fun t => t.pc == 0x204) ∧
    ends 0x5120 (regs2 7 8 base) (fun t => t.pc == 0x202) := by decide
/-- T-C9, T-C10 -/
theorem test_sneVy : ends 0x9120 (regs2 7 7 base) (fun t => t.pc == 0x202) ∧
    ends 0x9120 (regs2 7 8 base) (fun t => t.pc == 0x204) := by decide
/-- T-C12 to T-C14 -/
theorem test_jpV0 : ends 0xB300 (base.setReg 0 4) (fun t => t.pc == 0x304) ∧
    ends 0xBFFF (base.setReg 0 0xFF) (fun t => t.pc == 0x10FE) ∧
    ends 0xB300 (base.setReg 0 1) (fun t => t.pc == 0x301) := by decide

/-! Register load, arithmetic, logic, shift, random -/

/-- T-A1, T-A2 -/
theorem test_ldKk : ends 0x61AB base (fun t => t.reg 1 == 0xAB) ∧ ends 0x6F07 base (fun t => t.reg 15 == 7) := by decide
/-- T-A3, T-A4 -/
theorem test_addKk : ends 0x7101 (base.setReg 1 0xFF) (fun t => t.reg 1 == 0 && t.reg 15 == 0) ∧
    ends 0x71FF (base.setReg 1 0x10) (fun t => t.reg 1 == 0x0F) := by decide
/-- T-A5 -/
theorem test_ldVy : ends 0x8120 (base.setReg 2 0x33) (fun t => t.reg 1 == 0x33) := by decide
/-- T-A6, with VF = 1 before -/
theorem test_or : ends 0x8121 ((regs2 0xF0 0x3C base).setReg 15 1) (fun t => t.reg 1 == 0xFC && t.reg 15 == 1) := by decide
theorem test_and : ends 0x8122 ((regs2 0xF0 0x3C base).setReg 15 1) (fun t => t.reg 1 == 0x30 && t.reg 15 == 1) := by decide
theorem test_xor : ends 0x8123 ((regs2 0xF0 0x3C base).setReg 15 1) (fun t => t.reg 1 == 0xCC && t.reg 15 == 1) := by decide
/-- T-A8, T-A9, T-A12 -/
theorem test_addVy : ends 0x8124 (regs2 0xC8 0x64 base) (fun t => t.reg 1 == 0x2C && t.reg 15 == 1) ∧
    ends 0x8124 (regs2 0x80 0x7F (base.setReg 15 1)) (fun t => t.reg 1 == 0xFF && t.reg 15 == 0) ∧
    ends 0x8114 (base.setReg 1 0x90) (fun t => t.reg 1 == 0x20 && t.reg 15 == 1) := by decide
/-- T-A13, T-A14: VF as destination, VF as source -/
theorem test_addVy_flag : ends 0x8F24 ((base.setReg 2 0x20).setReg 15 0xF0) (fun t => t.reg 15 == 1) ∧
    ends 0x81F4 ((base.setReg 1 0x10).setReg 15 5) (fun t => t.reg 1 == 0x15 && t.reg 15 == 0) := by decide
/-- T-A15 to T-A17 -/
theorem test_sub : ends 0x8125 (regs2 0x0A 0x05 base) (fun t => t.reg 1 == 5 && t.reg 15 == 1) ∧
    ends 0x8125 (regs2 0x05 0x0A base) (fun t => t.reg 1 == 0xFB && t.reg 15 == 0) ∧
    ends 0x8125 (regs2 0x77 0x77 base) (fun t => t.reg 1 == 0 && t.reg 15 == 1) := by decide
/-- T-A19 -/
theorem test_sub_flag : ends 0x8F25 ((base.setReg 2 3).setReg 15 9) (fun t => t.reg 15 == 1) := by decide
/-- T-A20, T-A21 -/
theorem test_subn : ends 0x8127 (regs2 0x05 0x0A base) (fun t => t.reg 1 == 5 && t.reg 15 == 1) ∧
    ends 0x8127 (regs2 0x0A 0x05 base) (fun t => t.reg 1 == 0xFB && t.reg 15 == 0) := by decide
/-- T-A22, T-A23 -/
theorem test_shr : ends 0x8126 (regs2 0x05 0x99 base) (fun t => t.reg 1 == 2 && t.reg 15 == 1 && t.reg 2 == 0x99) ∧
    ends 0x8106 (base.setReg 1 0xFE) (fun t => t.reg 1 == 0x7F && t.reg 15 == 0) := by decide
/-- T-A25: the spec's decision D2. -/
theorem test_shr_flag : ends 0x8F06 (base.setReg 15 7) (fun t => t.reg 15 == 3) := by decide
/-- T-A26, T-A27 -/
theorem test_shl : ends 0x810E (base.setReg 1 0x81) (fun t => t.reg 1 == 2 && t.reg 15 == 1) ∧
    ends 0x810E (base.setReg 1 0x7F) (fun t => t.reg 1 == 0xFE && t.reg 15 == 0) := by decide
/-- T-A29: the spec's decision D2. -/
theorem test_shl_flag : ends 0x8F0E (base.setReg 15 0x81) (fun t => t.reg 15 == 2) ∧
    ends 0x8F0E (base.setReg 15 0x41) (fun t => t.reg 15 == 0x82) := by decide
/-- T-A30 -/
theorem test_rnd : ends 0xC10F base (fun t => t.reg 1 == 7) ∧ ends 0xC100 base (fun t => t.reg 1 == 0) ∧
    ends 0xC1FF base (fun t => t.reg 1 == 0xA7) := by decide

/-! Address register and memory -/

/-- T-M2 -/
theorem test_ldI : ends 0xAFFF base (fun t => t.i == 0xFFF) := by decide
/-- T-M3, T-M4, T-M6 -/
theorem test_addI : ends 0xF01E ((base.setI 0x300).setReg 0 0x0B) (fun t => t.i == 0x30B && t.reg 15 == 0) ∧
    ends 0xF01E ((base.setI 0xF01).setReg 0 0xFE) (fun t => t.i == 0xFFF && t.fault == none) ∧
    ends 0xF01E (base.setI 0xFFF) (fun t => t.i == 0xFFF && t.fault == none) := by decide
/-- T-M5 -/
theorem test_addI_overflow : ends 0xF01E ((base.setI 0xF01).setReg 0 0xFF)
    (fun t => t.fault == some ⟨.addrRegOverflow, 0x200, some 0xF01E⟩ && t.i == 0xF01) := by decide
/-- T-M7 -/
theorem test_ldF : ends 0xF029 (base.setReg 0 3) (fun t => t.i == 0x0F) ∧ ends 0xF029 (base.setReg 0 0xFF) (fun t => t.i == 0x4FB) := by
  decide
/-- T-M8, T-M10 -/
theorem test_ldB :
    ends 0xF033 ((base.setI 0x300).setReg 0 254) (fun t => t.mem.readBytes 0x300 3 == [2, 5, 4] && t.i == 0x300) ∧
    ends 0xF033 ((base.setI 0xFFD).setReg 0 123) (fun t => t.mem.readBytes 0xFFD 3 == [1, 2, 3]) := by decide
/-- T-M11 -/
theorem test_ldB_out : ends 0xF033 ((withBytes base 0xFFE [7, 8]).setI 0xFFE)
    (fun t => t.fault == some ⟨.memOutOfRange, 0x200, some 0xF033⟩ && t.mem.readBytes 0xFFE 2 == [7, 8]) := by decide
/-- T-M12 -/
theorem test_stRegs : ends 0xF255 (((withBytes base 0x30E [0x55]).setI 0x30B).setReg 0 0x0B |> regs2 5 4)
    (fun t => t.mem.readBytes 0x30B 4 == [0x0B, 5, 4, 0x55] && t.i == 0x30B) := by decide
/-- T-M16 -/
theorem test_stRegs_edge : ends 0xF055 ((base.setI 0xFFF).setReg 0 9) (fun t => t.mem.read 0xFFF == 9 && t.fault == none) ∧
    ends 0xF155 (base.setI 0xFFF) (fun t => t.fault == some ⟨.memOutOfRange, 0x200, some 0xF155⟩) := by decide
/-- T-M20: self-modifying code. -/
theorem test_stRegs_code : ends 0xF155 ((base.setI 0x202).setReg 0 0x12) (fun t => fetch t == some 0x1200) := by decide
/-- T-M17, T-M18 -/
theorem test_ldRegs :
    ends 0xF265 (((withBytes base 0x300 [2, 5, 4]).setI 0x300).setReg 3 0x77)
      (fun t => t.v.toList.take 4 == [2, 5, 4, 0x77] && t.i == 0x300) ∧
    ends 0xF465 base (fun t => t.v.toList.take 5 == [0xF0, 0x90, 0x90, 0x90, 0xF0]) := by decide
/-- T-M19 -/
theorem test_ldRegs_out : ends 0xFF65 ((base.setI 0xFF1).setReg 0 6)
    (fun t => t.fault == some ⟨.memOutOfRange, 0x200, some 0xFF65⟩ && t.reg 0 == 6) := by decide

/-! Display. A row is 64 bits, bit px the pixel of column px. -/

/-- T-D10: a lit pixel goes off, VF stays. -/
theorem test_cls : ends 0x00E0 ((base.setFb (FrameBuffer.flip clearFb 3 5)).setReg 15 1)
    (fun t => t.fb == clearFb && t.reg 15 == 1) := by decide
/-- T-D1, T-D3: bit 7 is the leftmost pixel; a partial overlap collides. -/
theorem test_drw_bits : ends 0xD011 ((withBytes base 0x300 [0x80]).setI 0x300) (fun t => t.fb[0] == 1 && t.reg 15 == 0) ∧
    ends 0xD011 ((((withBytes base 0x300 [0xC0]).setI 0x300).setReg 0 1).setFb (clearFb.set 0 3))
      (fun t => t.fb[0] == 5 && t.reg 15 == 1) := by decide
/-- T-D4: wrapping right and bottom. -/
theorem test_drw_wraps : ends 0xD012 ((((withBytes base 0x300 [0xFF, 0x81]).setI 0x300).setReg 0 62).setReg 1 31)
    (fun t => t.fb[31] == 0xC00000000000003F && t.fb[0] == 0x4000000000000020 && t.fb[1] == 0 && t.reg 15 == 0) := by decide

/-! Keys and timers -/

/-- T-K1 to T-K4 -/
theorem test_skp : ends 0xE29E ((withInputs 0 (some 0xA)).setReg 2 0x0A) (fun t => t.pc == 0x204) ∧
    ends 0xE29E ((withInputs 0 (some 3)).setReg 2 0x0A) (fun t => t.pc == 0x202) ∧
    ends 0xE29E ((withInputs 0 none).setReg 2 0x0A) (fun t => t.pc == 0x202) ∧
    ends 0xE29E ((withInputs 0 (some 0xA)).setReg 2 0x1A) (fun t => t.pc == 0x202) := by decide
/-- T-K1 to T-K4 -/
theorem test_sknp : ends 0xE2A1 ((withInputs 0 (some 0xA)).setReg 2 0x0A) (fun t => t.pc == 0x202) ∧
    ends 0xE2A1 ((withInputs 0 (some 3)).setReg 2 0x0A) (fun t => t.pc == 0x204) ∧
    ends 0xE2A1 ((withInputs 0 none).setReg 2 0x0A) (fun t => t.pc == 0x204) ∧
    ends 0xE2A1 ((withInputs 0 (some 0xA)).setReg 2 0x1A) (fun t => t.pc == 0x204) := by decide
/-- T-K5 -/
theorem test_ldVxK_waits : ends 0xF30A (((withInputs 0 none).jump 0x210).setReg 3 9)
    (fun t => t.pc == 0x210 && t.mode == .awaitingKey && t.reg 3 == 9) := by decide
/-- T-K6, T-K7 -/
theorem test_ldVxK_key :
    ends 0xF30A (((withInputs 0 (some 7)).jump 0x210).setMode .awaitingKey)
      (fun t => t.pc == 0x212 && t.mode == .running && t.reg 3 == 7) ∧
    ends 0xF30A (((withInputs 0 (some 0)).jump 0x210).setReg 3 9) (fun t => t.pc == 0x212 && t.reg 3 == 0) := by decide
/-- T-T1 to T-T5 -/
theorem test_ldVxDt : ends 0xF107 ((withInputs 1015 none).setDelay ⟨60, 1000⟩) (fun t => t.reg 1 == 60) ∧
    ends 0xF107 ((withInputs 1016 none).setDelay ⟨60, 1000⟩) (fun t => t.reg 1 == 59) ∧
    ends 0xF107 ((withInputs 1959 none).setDelay ⟨60, 1000⟩) (fun t => t.reg 1 == 1) ∧
    ends 0xF107 ((withInputs 1960 none).setDelay ⟨60, 1000⟩) (fun t => t.reg 1 == 0 && t.dt == ⟨60, 1000⟩) := by decide
/-- T-T10 -/
theorem test_ldDtVx : ends 0xF115 (((withInputs 5100 none).setDelay ⟨60, 5000⟩).setReg 1 2) (fun t => t.dt == ⟨2, 5100⟩) := by
  decide
/-- T-T11 -/
theorem test_ldStVx : ends 0xF118 (((withInputs 7000 none).setDelay ⟨60, 5000⟩).setReg 1 5)
    (fun t => t.st == ⟨5, 7000⟩ && t.dt == ⟨60, 5000⟩ && soundIs t 7079 1 && soundIs t 7080 0) := by decide

/-! The step itself -/

/-- T-X1 -/
theorem test_unrecognized : ends 0x0123 base (fun t => t.pc == 0x202 && t.diag == [(0x200, 0x0123)] && t.fault == none) := by
  decide
/-- T-C15, T-C16: the last fetchable address, and the one past it. -/
theorem test_fetch_edge : ends 0x6005 (base.jump 0xFFE) (fun t => t.pc == 0x1000 && t.reg 0 == 5) ∧
    ends 0x6005 (base.jump 0xFFF) (fun t => t.pc == 0xFFF && t.fault == some ⟨.fetchOutOfRange, 0xFFF, none⟩) := by decide
/-- T-X5: the largest image, and one byte more. -/
theorem test_load : load [0x60, 0x0A] State.reset = .next (withBytes State.reset 0x200 [0x60, 0x0A]).markLoaded ∧
    load (List.replicate 3585 0) State.reset = .fault .imageTooLarge :=
  ⟨rfl, by unfold load; rw [if_neg (by decide), if_neg (by decide), if_pos (by rw [List.length_replicate]; decide)]⟩

/-- R186: `Load` happens once; the second one, here of other bytes, is refused. -/
theorem test_load_once : ∃ t, load [0x60, 0x0A] State.reset = .next t ∧ load [0x12, 0x00] t = .refused .loadedAlready :=
  ⟨_, rfl, rfl⟩

/-! Witnesses: what the premises of the statements ask for is met. `witness_<Name>` belongs to `Obligations.<Name>`. -/

/-- `base` with a word at its `PC`. -/
def holding (w : Nat) (s : State := base) : State := s.withFetchWord 16 w

theorem witness_DecodedWordEncodesBack : decodeWord 0x8AF6 = .ok (.shr 10 15) := by decide

theorem witness_ShiftsIgnoreTheirYField : (2 : Reg) ≠ 1 ∧ (2 : Reg) ≠ 15#4 := by decide

/-- At the last address a fetch can start at. -/
theorem witness_StepRunsTheDecodedInstruction :
    (holding 0x6A7F (base.jump 0xFFE)).CanFetch ∧ (Instr.ldKk 10 0x7F).wellFormed = true ∧
    decode [(holding 0x6A7F (base.jump 0xFFE)).mem.read 0xFFE, (holding 0x6A7F (base.jump 0xFFE)).mem.read 0xFFF] =
      .ok (.ldKk 10 0x7F, []) := ⟨⟨rfl, by decide⟩, by decide, by decide⟩

theorem witness_FetchIsBigEndian : (base.jump 0xFFE).pc.toNat ≤ 0xFFE ∧
    (withBytes base 0x200 [0x60, 0x0A, 0x70, 0x05, 0x12, 0x00]).mem.readBytes 0x200 6 =
      [0x60, 0x0A, 0x70, 0x05, 0x12, 0x00] := by decide

/-- A halted block: T-C5. -/
def halted : State := base.latchFault ⟨.stackUnderflow, 0x200, some 0x00EE⟩

theorem witness_HaltedBlockNeverChanges : halted.fault ≠ none := by decide

theorem witness_FetchPastTheEndFaults :
    (base.jump 0xFFF).fault = none ∧ 0xFFE < (base.jump 0xFFF).pc.toNat ∧ (base.jump 0xFFF).pc = 0x0FFF ∧
    ∃ t r, step (base.jump 0xFFF) = .next t ∧ t.fault = some r ∧ r.cause = .fetchOutOfRange :=
  ⟨rfl, by decide, rfl, _, _, rfl, rfl, rfl⟩

theorem witness_UnrecognizedWordIsReported :
    (holding 0x0123).fault = none ∧ fetch (holding 0x0123) = some 0x0123 ∧
    decodeWord 0x0123 = .error (.unrecognized 0x0123) := by decide

/-- The three clauses: a recognized word, an unrecognized one, a fault. -/
theorem witness_FinalPcByInstruction :
    ((holding 0x1ABC).fault = none ∧ fetch (holding 0x1ABC) = some 0x1ABC ∧ decodeWord 0x1ABC = .ok (.jp 0xABC)) ∧
    (fetch (holding 0x8008) = some 0x8008 ∧ decodeWord 0x8008 = .error (.unrecognized 0x8008)) ∧
    ∃ t, step (holding 0x00EE) = .next t ∧ t.fault ≠ none := ⟨by decide, by decide, _, rfl, by decide⟩

/-- The table of R83 at the edges of its conditions: an index of 0xFFF and 0x1000, the last store that fits and the first
that does not, a sprite of no rows at any `I`. -/
theorem test_finalPc_edges :
    finalPc (.addI 0) ((base.setI 0xF01).setReg 0 0xFE) = 0x202 ∧ finalPc (.addI 0) ((base.setI 0xF01).setReg 0 0xFF) = 0x200 ∧
    finalPc (.ldB 0) (base.setI 0xFFD) = 0x202 ∧ finalPc (.ldB 0) (base.setI 0xFFE) = 0x200 ∧
    finalPc (.stRegs 15) (base.setI 0xFF0) = 0x202 ∧ finalPc (.ldRegs 15) (base.setI 0xFF1) = 0x200 ∧
    finalPc (.drw 0 1 2) (base.setI 0xFFE) = 0x202 ∧ finalPc (.drw 0 1 3) (base.setI 0xFFE) = 0x200 ∧
    finalPc (.drw 0 1 0) (base.setI 0xFFFF) = 0x202 ∧ finalPc .ret base = 0x200 ∧ finalPc (.call 0x300) base = 0x300 ∧
    finalPc (.call 0x300) (base.setSp 16) = 0x200 := by decide

theorem witness_FaultsArePreciseAndFinal :
    (holding 0x00EE).fault = none ∧ ∃ t, step (holding 0x00EE) = .next t ∧ t.fault ≠ none := ⟨rfl, _, rfl, by decide⟩

/-- A fetch fault, an instruction that faults, one that does not, and an unrecognized word. -/
theorem witness_FaultsAreRaisedExactly :
    ((base.jump 0xFFF).fault = none ∧ fetch (base.jump 0xFFF) = none) ∧
    (fetch (holding 0x00EE) = some 0x00EE ∧ decodeWord 0x00EE = .ok .ret ∧
      raises .ret (holding 0x00EE) = some .stackUnderflow) ∧
    (fetch (holding 0x6A7F) = some 0x6A7F ∧ decodeWord 0x6A7F = .ok (.ldKk 10 0x7F) ∧
      raises (.ldKk 10 0x7F) (holding 0x6A7F) = none) ∧
    (fetch (holding 0x0123) = some 0x0123 ∧ decodeWord 0x0123 = .error (.unrecognized 0x0123)) := by decide

/-- The table of R151 at the edges of its conditions. -/
theorem test_raises_edges :
    raises (.call 0) (base.setSp 15) = none ∧ raises (.call 0) (base.setSp 16) = some .stackOverflow ∧
    raises .ret (base.setSp 1) = none ∧ raises .ret base = some .stackUnderflow ∧
    raises (.ldB 0) (base.setI 0xFFD) = none ∧ raises (.ldB 0) (base.setI 0xFFE) = some .memOutOfRange ∧
    raises (.stRegs 15) (base.setI 0xFF0) = none ∧ raises (.stRegs 15) (base.setI 0xFF1) = some .memOutOfRange ∧
    raises (.drw 0 1 2) (base.setI 0xFFE) = none ∧ raises (.drw 0 1 3) (base.setI 0xFFE) = some .memOutOfRange ∧
    raises (.drw 0 1 0) (base.setI 0xFFFF) = none ∧
    raises (.addI 0) ((base.setI 0xF01).setReg 0 0xFE) = none ∧
    raises (.addI 0) ((base.setI 0xF01).setReg 0 0xFF) = some .addrRegOverflow := by decide

/-- Another host's side: the same `now`, another key and another random byte. -/
def otherKey : Env := { clock := 5, tick := 3, script := [{ elapsed := 0, key := some 3, rand := 9 }], loaded := true }

/-- An instruction that reads `now`, run with another key and random byte; and one that reads neither, with nothing shared. -/
theorem witness_InputsReachOnlyTheirReaders :
    (({ withInputs 5 none with env := otherKey } : State).now = (withInputs 5 none).now ∧
      ¬ readsKey (.ldVxDt 1) ∧ ¬ readsRand (.ldVxDt 1) ∧ readsNow (.ldVxDt 1)) ∧
    (({ withInputs 0 (some 3) with env := otherKey } : State).key = (withInputs 0 (some 3)).key ∧
      ¬ readsNow (.skp 1) ∧ ¬ readsRand (.skp 1) ∧ readsKey (.skp 1)) ∧
    (¬ readsNow .cls ∧ ¬ readsKey .cls ∧ ¬ readsRand .cls) := by
  simp [readsNow, readsKey, readsRand, State.now, State.key, State.input, withInputs, otherKey, State.supply, State.reset]

/-- Two states that differ in all that is never read, and in nothing else. -/
theorem witness_ModeSoundDiagAndDeadEntriesAreNeverRead :
    AgreeOnWhatIsRead (base.setSp 1)
      (((((base.setSp 1).setEntry 1 0x234).setMode .awaitingKey).setSound ⟨9, 0⟩).diagnose 0x200 0x0123) := by
  refine ⟨?_, rfl, rfl, ?_⟩
  · intro k hk
    have : k = 0 := by simp only [base, State.setSp, State.supply] at hk; omega
    subst this; rfl
  · intro p hp
    cases p <;> first | exact fun _ => rfl | exact fun _ _ => rfl | rfl | exact absurd (by decide) hp

theorem witness_OnlyNamedRegistersAreWritten :
    (∃ t, exec (.ldKk 1 5) base = .next t) ∧ ¬ writes (.ldKk 1 5) 2 ∧
    (∃ t, exec (.ldRegs 3) base = .next t) ∧ writes (.ldRegs 3) 3 ∧ ¬ writes (.ldRegs 3) 4 :=
  ⟨⟨_, rfl⟩, by simp [writes], ⟨_, rfl⟩, by simp [writes], by simp [writes]⟩

/-- V7 differs, and SE V1, V2 does not read it. -/
theorem witness_OnlyNamedRegistersAreRead :
    (base.setReg 7 0x55).pc = base.pc ∧ SameBut [.regs] base (base.setReg 7 0x55) ∧
    (∀ r, reads (.seVy 1 2) r → (base.setReg 7 0x55).reg r = base.reg r) ∧ (base.setReg 7 0x55).reg 7 ≠ base.reg 7 := by
  refine ⟨rfl, ?_, ?_, by decide⟩
  · intro p hp
    cases p <;> first | exact fun _ => rfl | exact fun _ _ => rfl | rfl | exact absurd (by decide) hp | exact ⟨rfl, fun _ => rfl⟩
  · rintro r (rfl | rfl) <;> decide

theorem witness_EachPieceHasOnlyItsWriters : ∃ t, exec (.ldB 0) (base.setI 0x300) = .next t := ⟨_, rfl⟩

/-- The addresses on either side of the three stored bytes, and any address for a form that stores nothing. -/
theorem witness_OnlyTheStoredBytesChange :
    (∃ t, exec (.ldB 0) (base.setI 0x300) = .next t) ∧ (0x2FF < (base.setI 0x300).i.toNat) ∧
    ((base.setI 0x300).i.toNat + storedBytes (.ldB 0) ≤ 0x303) ∧
    (∃ t, exec (.ldKk 0 1) base = .next t) ∧ base.i.toNat + storedBytes (.ldKk 0 1) ≤ 0 :=
  ⟨⟨_, rfl⟩, by decide, by decide, ⟨_, rfl⟩, by decide⟩

/-- The largest image; an image that loads, with the first address before it and the first after it; a block already
loaded, one that has taken a step, and an image one byte too long. -/
theorem witness_LoadPlacesTheImage :
    State.reset.env.loaded = false ∧ State.reset.env.tick = 0 ∧ (List.replicate 3584 (0 : Byte)).length ≤ 3584 ∧
    (∃ t, load [0x60, 0x0A] State.reset = .next t) ∧ 0x1FF < 0x200 ∧ 0x200 + [0x60, 0x0A].length ≤ 0x202 ∧
    (∃ t, load [] State.reset = .next t ∧ t.env.loaded = true) ∧
    (∃ t, step (holding 0x00E0) = .next t ∧ t.env.loaded = false ∧ t.env.tick ≠ 0) ∧
    3584 < (List.replicate 3585 (0 : Byte)).length :=
  ⟨rfl, rfl, le_of_eq List.length_replicate, ⟨_, rfl⟩, by decide, by decide, ⟨_, rfl, rfl⟩, ⟨_, rfl, by decide, by decide⟩,
    by rw [List.length_replicate]; decide⟩

/-- A step that has run; a storing one, with the addresses beside its three bytes; an unrecognized word; a fault. -/
theorem witness_NoLoadDuringARun :
    (base.fault = none ∧ ∃ t, step (holding 0x00E0) = .next t) ∧
    (fetch (holding 0xF033 (base.setI 0x300)) = some 0xF033 ∧ decodeWord 0xF033 = .ok (.ldB 0) ∧
      (∃ t, step (holding 0xF033 (base.setI 0x300)) = .next t) ∧ 0x2FF < (holding 0xF033 (base.setI 0x300)).i.toNat ∧
      (holding 0xF033 (base.setI 0x300)).i.toNat + storedBytes (.ldB 0) ≤ 0x303) ∧
    (fetch (holding 0x0123) = some 0x0123 ∧ decodeWord 0x0123 = .error (.unrecognized 0x0123) ∧
      ∃ t, step (holding 0x0123) = .next t) ∧
    ∃ t, step (holding 0x00EE) = .next t ∧ t.fault ≠ none :=
  ⟨⟨rfl, _, rfl⟩, ⟨by decide, by decide, ⟨_, rfl⟩, by decide, by decide⟩, ⟨by decide, by decide, _, rfl⟩, _, rfl, by decide⟩

/-- A state in the middle of a run: one call open, one diagnostic, waiting for a key at 0x200. -/
def waiting : State :=
  (((((holding 0xF30A).setEntry 0 0x1000).setSp 1).setI 0xFFF).setMode .awaitingKey).diagnose 0x202 0x0123

/-- The state meets the invariant, and a step goes on from it. -/
theorem witness_StepKeepsTheInvariant : waiting.Inv ∧ ∃ t, step waiting = .next t := by
  refine ⟨⟨by decide, by decide, by decide, ?_, by decide, by decide, ?_, ?_, ?_⟩, _, rfl⟩
  · intro k hk
    have : k = 0 := by
      simp only [waiting, holding, State.diagnose, State.setMode, State.setI, State.setSp, State.withFetchWord] at hk
      omega
    subst this; decide
  · intro r h; exact absurd h (by simp [waiting, holding, base, State.diagnose, State.setMode, State.setI, State.setSp,
      State.setEntry, State.withFetchWord, State.setMem, State.supply, State.reset])
  · intro e he
    have : e = (0x202, 0x0123) := by
      have hd : waiting.diag = [(0x202, 0x0123)] := by decide
      rw [hd] at he; simpa using he
    subst this; exact ⟨by decide, by decide⟩
  · exact fun _ => ⟨by decide, 0xF30A, 3, by decide, by decide⟩

theorem witness_MemoryStaysCanonical :
    (base.setI 0x300).mem.wf = true ∧ (∃ t, exec (.ldB 0) (base.setI 0x300) = .next t) ∧
    (holding 0xF033).mem.wf = true ∧ ∃ t, step (holding 0xF033) = .next t := ⟨by decide, ⟨_, rfl⟩, by decide, _, rfl⟩

/-- One entry, sixteen entries, none. -/
theorem witness_RetPopsIntoPc : 0 < (base.setSp 1).sp.val ∧ 0 < (base.setSp 16).sp.val ∧ base.sp.val = 0 := by decide

/-- An empty stack, one free entry, a full stack. -/
theorem witness_CallPushesAndJumps : base.sp.val < 16 ∧ (base.setSp 15).sp.val < 16 ∧ (base.setSp 16).sp.val = 16 := by
  decide

theorem witness_SkipsOnRegisters : (0xF : Nibble) ≠ 0 ∧ (1 : Nibble) ≠ 0 := by decide

/-- The smallest sum past the last fetchable address. -/
theorem witness_JpV0AddsWithoutReduction :
    base.fault = none ∧ 0xFFE < (0xF00 : Addr12).toNat + ((base.setReg 0 0xFF).reg 0).toNat := by decide

/-- CALL 0x204 at 0x200; at 0x204 a load, then the return. -/
def calling : State := withBytes base 0x200 [0x22, 0x04, 0x00, 0x00, 0x6A, 0x01, 0x00, 0xEE]

theorem witness_ReturnComesBackToItsCall : ∃ s1 t u,
    calling.fault = none ∧ fetch calling = some 0x2204 ∧ decodeWord 0x2204 = .ok (.call 0x204) ∧ calling.sp.val < 16 ∧
    step calling = .next s1 ∧ RunAbove s1.sp.val s1 t ∧ t.sp = s1.sp ∧ t.fault = none ∧ fetch t = some 0x00EE ∧
    decodeWord 0x00EE = .ok .ret ∧ step t = .next u :=
  ⟨_, _, _, rfl, by decide, by decide, by decide, rfl, .more _ _ _ (.stay _) rfl (by decide), rfl, rfl, by decide, by decide,
    rfl⟩

theorem witness_AddSetsCarry : (14 : Reg) ≠ 15 ∧ (1 : Reg) ≠ 14 ∧ (1 : Reg) ≠ 15 := by decide
theorem witness_SubtractsSetNoBorrow : (14 : Reg) ≠ 15 ∧ (1 : Reg) ≠ 14 ∧ (1 : Reg) ≠ 15 := by decide
theorem witness_ShiftsSetTheDroppedBit : (14 : Reg) ≠ 15 ∧ (1 : Reg) ≠ 14 ∧ (1 : Reg) ≠ 15 := by decide

/-- x other than 15; a sum of 0xFFF and one of 0x1000. -/
theorem witness_NamedAlternativesDifferOnlyWhereSaid :
    (14 : Reg) ≠ 15 ∧ (0xF01 : Word).toNat + (0xFE : Byte).toNat ≤ 0xFFF ∧
    0xFFF < (0xF01 : Word).toNat + (0xFF : Byte).toNat := by decide

/-- A sum of 0xFFF and one of 0x1000. -/
theorem witness_AddIndexOrFault :
    ((base.setI 0xF01).setReg 0 0xFE).i.toNat + (((base.setI 0xF01).setReg 0 0xFE).reg 0).toNat ≤ 0xFFF ∧
    0xFFF < ((base.setI 0xF01).setReg 0 0xFF).i.toNat + (((base.setI 0xF01).setReg 0 0xFF).reg 0).toNat := by decide

theorem witness_DecimalDigitsAreStored : (base.setI 0xFFD).i.toNat ≤ 0xFFD ∧ 0xFFD < (base.setI 0xFFE).i.toNat := by decide

/-- The premises of RegistersAreStored and RegistersAreLoaded: sixteen bytes that just fit, and that just do not. -/
theorem witness_RegistersAreStored :
    (base.setI 0xFF0).i.toNat + (15 : Reg).toNat ≤ 0xFFF ∧ 0xFFF < (base.setI 0xFF1).i.toNat + (15 : Reg).toNat ∧
    (15 : Reg).toNat ≤ (15 : Reg).toNat := by decide

theorem witness_RegistersAreLoaded :
    (base.setI 0xFFF).i.toNat + (0 : Reg).toNat ≤ 0xFFF ∧ 0xFFF < (base.setI 0xFFF).i.toNat + (1 : Reg).toNat ∧
    (0 : Reg).toNat < (15 : Reg).toNat := by decide

/-- The state after the store, with its registers cleared. -/
theorem witness_StoredRegistersLoadBack : (base.setI 0xFF0).i.toNat + (15 : Reg).toNat ≤ 0xFFF ∧
    ∃ t, exec (.stRegs 15) ((base.setI 0xFF0).setReg 3 7) = .next t ∧ (t.setReg 3 0).i = (base.setI 0xFF0).i ∧
      ∀ a, (t.setReg 3 0).mem.read a = t.mem.read a := ⟨by decide, _, rfl, by decide, fun _ => rfl⟩

/-- Sixteen and three bytes that just fit; a fetch of two stored bytes, of one at either end, and of none; and a word so
stored that decodes, and one that does not. -/
theorem witness_StoredBytesAreFetched :
    (base.setI 0xFF0).fault = none ∧
    (base.setI 0xFF0).i.toNat + storedBytes (.stRegs 15) ≤ 0x1000 ∧
    (base.setI 0xFFD).i.toNat + storedBytes (.ldB 0) ≤ 0x1000 ∧
    byteAfter (.ldB 0) ((base.setI 0xFFD).setReg 0 123) 0xFFD = 1 ∧
    byteAfter (.ldB 0) ((base.setI 0xFFD).setReg 0 123) 0xFFF = 3 ∧
    byteAfter (.stRegs 1) (((withBytes base 0x2FF [0x12, 0, 0, 0x34]).setI 0x300).setReg 0 0xE0) 0x2FF = 0x12 ∧
    byteAfter (.stRegs 1) (((withBytes base 0x2FF [0x12, 0, 0, 0x34]).setI 0x300).setReg 0 0xE0) 0x300 = 0xE0 ∧
    byteAfter (.stRegs 1) (((withBytes base 0x2FF [0x12, 0, 0, 0x34]).setI 0x300).setReg 0 0xE0) 0x302 = 0x34 ∧
    decodeWord 0x12E0 = .ok (.jp 0x2E0) ∧ decodeWord 0xE000 = .error (.unrecognized 0xE000) := by decide

/-- No rows at any `I`, two rows that just fit, three that do not; a pixel under the sprite (bit 7 of the glyph's first
row) and one beside it (bit 3). -/
theorem witness_DrwInvertsThePixelsUnderTheSprite :
    ((0 : Nibble).toNat = 0) ∧ ((base.setI 0xFFE).i.toNat + (2 : Nibble).toNat - 1 ≤ 0xFFF) ∧
    ((3 : Nibble).toNat ≠ 0 ∧ 0xFFF < (base.setI 0xFFE).i.toNat + (3 : Nibble).toNat - 1) ∧
    SpriteOn 62 31 2 (fun r => base.mem.read r) 62 31 ∧ SpriteOn 62 31 2 (fun r => base.mem.read r) 1 31 ∧
    ¬ SpriteOn 62 31 2 (fun r => base.mem.read r) 2 31 := by
  refine ⟨by decide, by decide, by decide, ⟨0, 0, by decide⟩, ⟨0, 3, by decide⟩, ?_⟩
  rintro ⟨r, col, hr, hc, hb, hx, hy⟩
  have h0 : r = 0 := by simp at hy; omega
  have h4 : col = 4 := by simp at hx; omega
  subst h0 h4; revert hb; decide

/-- Fifteen rows, the most a draw has. -/
theorem witness_DrawingTwiceRestores : (List.replicate 15 (0xFF : Byte)).length ≤ 15 := by decide

theorem witness_KeyReadWaitsForAKey : (withInputs 0 none).key = none ∧ (withInputs 0 (some 0)).key = some 0 := by decide

/-- Read at the very instant it was set. -/
theorem witness_DelayTimerIsRead :
    ((withInputs 1000 none).setDelay ⟨60, 1000⟩).dt.instant ≤ ((withInputs 1000 none).setDelay ⟨60, 1000⟩).now := by decide

/-- The edges: exactly v * 16 ms; the first and the last millisecond of the last count. -/
theorem witness_TimerDecay :
    (1000 ≤ 1960 ∧ (60 : Byte).toNat * 16 ≤ 1960 - 1000) ∧
    (16 * 60 ≤ 960 ∧ 960 < 16 * (60 + 1) ∧ 60 ≤ (60 : Byte).toNat) ∧ (16 * 59 ≤ 959 ∧ 959 < 16 * (59 + 1)) ∧
    (1000 ≤ 1000 ∧ 1000 ≤ 1001) := by decide

/-- A state 5 ms into the run, with a `now` just before its clock; the eight instructions that read an input, at the
earliest `now`; a key and none, equal to Vx and not; and a halted block. -/
theorem witness_SuppliedInputsAreTheOnesRead :
    4 < (withInputs 5 none).endStep.env.clock ∧ (withInputs 5 none).endStep.env.clock ≤ 5 ∧
    (halted.fault ≠ none ∧ halted.env.clock ≤ 0) ∧
    (holding 0xF107).fault = none ∧ fetch (holding 0xF107) = some 0xF107 ∧ (holding 0xF107).env.clock ≤ 0 ∧
    (holding 0xF107).dt.instant ≤ 0 ∧
    decodeWord 0xF107 = .ok (.ldVxDt 1) ∧ fetch (holding 0xF115) = some 0xF115 ∧ decodeWord 0xF115 = .ok (.ldDtVx 1) ∧
    fetch (holding 0xF118) = some 0xF118 ∧ decodeWord 0xF118 = .ok (.ldStVx 1) ∧
    fetch (holding 0xE19E) = some 0xE19E ∧ decodeWord 0xE19E = .ok (.skp 1) ∧
    fetch (holding 0xE1A1) = some 0xE1A1 ∧ decodeWord 0xE1A1 = .ok (.sknp 1) ∧
    (∃ k : Key, some (0 : Key) = some k ∧ k.toNat = ((holding 0xE19E).reg 1).toNat) ∧
    ¬ (∃ k : Key, none = some k ∧ k.toNat = ((holding 0xE19E).reg 1).toNat) ∧
    fetch (holding 0xC10F) = some 0xC10F ∧ decodeWord 0xC10F = .ok (.rnd 1 0x0F) ∧
    fetch (holding 0xF30A) = some 0xF30A ∧ decodeWord 0xF30A = .ok (.ldVxK 3) := by decide

/-- T-K1, T-K3, T-K5 through the host's operation: the key given is the key compared. -/
theorem test_stepWith_key :
    gives (stepWith 0 (some 0xA) 0 (holding 0xE29E (base.setReg 2 0x0A))) (fun t => t.pc == 0x204) ∧
    gives (stepWith 0 none 0 (holding 0xE29E (base.setReg 2 0x0A))) (fun t => t.pc == 0x202) ∧
    gives (stepWith 0 none 0 (holding 0xF30A)) (fun t => t.pc == 0x200 && t.mode == .awaitingKey) := by decide

/-- A live entry, the newest of two, and a step. -/
theorem witness_LiveStackEntriesAreKept :
    (1 : Fin 16).val < (holding 0x2300 (base.setSp 2)).sp.val ∧ ∃ t, step (holding 0x2300 (base.setSp 2)) = .next t :=
  ⟨by decide, _, rfl⟩

/-- The last point of the grid and the first ones out of it; the instant of the last step and of the setting, and the one
before the last step. -/
theorem witness_HostReadPorts : (63 < 64 ∧ 31 < 32) ∧ (64 ≤ 64 ∨ 32 ≤ 0) ∧ (64 ≤ 0 ∨ 32 ≤ 32) ∧
    (base.setSound ⟨5, 7000⟩).st.instant ≤ 7000 ∧ (base.setSound ⟨5, 7000⟩).env.clock ≤ 7000 ∧
    4 < (withInputs 5 none).endStep.env.clock := by decide

end Sys2Proof.Tests
end

section
/-! PROOFS of the statements of spec/00_scope.md. First what every step keeps of the host's side and what a step at a
fetched word is, then the inputs an instruction reads. -/

namespace Sys2Proof.Machine

/-! The host's side through an instruction, and a step at a fetched word -/

/-- No instruction's effect touches the host's side (R5). -/
theorem Effect.env_eq {i : Instr} {s t : State} (h : Effect i s t) : t.env = s.env := by
  cases i <;> simp only [Effect] at h
  case ret | call => obtain ⟨_, rfl⟩ := h; rfl
  case addI => obtain ⟨_, _, _, rfl⟩ := h; rfl
  case ldB | stRegs | drw => obtain ⟨_, rfl⟩ := h; rfl
  case ldRegs => obtain ⟨_, rfl⟩ := h; exact State.env_setRegsFrom _ _ _
  case ldVxK => obtain ⟨_, rfl⟩ | ⟨_, _, rfl⟩ := h <;> rfl
  case seKk | sneKk | seVy | sneVy | skp | sknp => subst h; exact State.env_skipIf _ _
  all_goals subst h; rfl

/-- An instruction leaves the host's side as it is, whether it faults or not. -/
theorem exec_env_eq {i : Instr} {s t : State} (h : exec i s = .next t) : t.env = s.env := by
  obtain ⟨c, -, rfl⟩ | he := exec_cases i s t h
  · rfl
  · exact he.env_eq

/-- An instruction whose check cannot fail has its effect. -/
theorem effect_of_exec {i : Instr} {s t : State} (hn : ∀ c, ¬ FailsWith i s c) (h : exec i s = .next t) :
    Effect i s t := by
  obtain ⟨c, hc, -⟩ | he := exec_cases i s t h
  · exact absurd hc (hn c)
  · exact he

/-- A step of a running block at a fetched word: a state with the host's side untouched, which is what the decoded
instruction answers, and then the host's side moves on (R80). -/
theorem step_of_fetch {s : State} {w : Word} (hf : s.fault = none) (hw : fetch s = some w) :
    ∃ u, step s = .next u.endStep ∧ u.env = s.env ∧
      ∀ i, decodeWord w = .ok i → exec i s.advance = .next u := by
  obtain ⟨h, -⟩ | ⟨-, h, -⟩ | ⟨w', -, hw', hd, hs⟩ | ⟨w', i, -, hw', hd, hs⟩ := step_cases s
  · exact absurd hf h
  · rw [hw] at h; cases h
  · obtain rfl : w = w' := Option.some.inj (hw.symm.trans hw')
    exact ⟨_, hs, rfl, fun i hi => by rw [hd] at hi; cases hi⟩
  · obtain rfl : w = w' := Option.some.inj (hw.symm.trans hw')
    obtain ⟨u, hu, -⟩ := exec_answers i s.advance
    refine ⟨u, by rw [hs, hu]; rfl, (exec_env_eq hu).trans s.env_advance, fun j hj => ?_⟩
    obtain rfl : i = j := Except.ok.inj (hd.symm.trans hj)
    exact hu

/-! The key comparison and the skips on it -/

/-- A 4-bit key zero-extended (R140, R142) has its own value. -/
theorem toNat_extKey (k : Key) : (k.zeroExtend 8).toNat = k.toNat :=
  BitVec.toNat_setWidth_of_le (by decide)

/-- The comparison of R140: there is a key, and it is the register's whole value. -/
theorem keyIs_iff (key : Option Key) (b : Byte) : keyIs key b = true ↔ ∃ k, key = some k ∧ k.toNat = b.toNat := by
  cases key with
  | none => simp [keyIs]
  | some k =>
    rw [keyIs, beq_iff_eq, ← BitVec.toNat_inj, toNat_extKey]
    simp only [Option.some.injEq, exists_eq_left']

/-- `PC` after a skip, from `PC` before the fetch (R83, R90(a)). -/
theorem State.pc_advance_skipIf (s : State) (c : Bool) :
    (s.advance.skipIf c).pc = if c then s.pc + 4 else s.pc + 2 := by
  cases c
  · rfl
  · simp [BitVec.add_assoc]

/-! Supplied inputs -/

/-- `Step(now, key, rand)` at a fetched word of a running block: the decoded instruction run on the supplied inputs, and
then a clock at `now`, one tick more and nothing left of the script. -/
theorem stepWith_of_fetch {now : Nat} {key : Option Key} {rand : Byte} {s : State} {w : Word}
    (hf : s.fault = none) (hc : s.env.clock ≤ now) (hw : fetch s = some w) :
    ∃ u, stepWith now key rand s = .next u.endStep ∧
      u.endStep.env = { s.env with clock := now, tick := s.env.tick + 1, script := [] } ∧
      ∀ i, decodeWord w = .ok i →
        exec i (s.supply [{ elapsed := now - s.env.clock, key := key, rand := rand }]).advance = .next u := by
  obtain ⟨u, hstep, henv, hexec⟩ :=
    step_of_fetch (s := s.supply [{ elapsed := now - s.env.clock, key := key, rand := rand }]) hf hw
  have hnow : u.now = now := (State.now_of_env _ henv).trans (now_of_supplied now key rand s hc)
  refine ⟨u, ?_, ?_, hexec⟩
  · obtain ⟨h, -⟩ | ⟨-, h, -⟩ | ⟨-, -, h⟩ := stepWith_cases now key rand s
    · omega
    · exact absurd hf h
    · exact h.trans hstep
  · simp only [State.env_endStep, hnow, henv, State.env_supply, List.tail_cons]

/-- Settles O58. The refusal and the halted block are `stepWith_cases`; the step is the instruction run on the supplied
inputs (`stepWith_of_fetch`), and no reader of an input has a check that fails, so each has its effect. -/
theorem suppliedInputsAreTheOnesRead : Obligations.SuppliedInputsAreTheOnesRead := by
  refine ⟨fun s now key rand h => ?_, fun s now key rand hc hf => ?_, fun s now key rand w hf hc hw => ?_⟩
  · obtain ⟨-, e⟩ | ⟨h', -⟩ | ⟨h', -⟩ := stepWith_cases now key rand s
    · exact e
    all_goals omega
  · obtain ⟨h', -⟩ | ⟨-, -, e⟩ | ⟨-, h', -⟩ := stepWith_cases now key rand s
    · omega
    · exact e
    · exact absurd h' hf
  · obtain ⟨u, hstep, henv, hexec⟩ := stepWith_of_fetch (key := key) (rand := rand) hf hc hw
    have hnow := now_of_supplied now key rand s hc
    refine ⟨u.endStep, hstep, by rw [henv], by rw [henv], by rw [henv], ?_, ?_, ?_, ?_, ?_, ?_, ?_, ?_⟩
    · intro x hd _
      obtain rfl := effect_of_exec (fun _ => id) (hexec _ hd)
      simp [hnow]
    · intro x hd
      obtain rfl := effect_of_exec (fun _ => id) (hexec _ hd)
      simp [setTimer, hnow]
    · intro x hd
      obtain rfl := effect_of_exec (fun _ => id) (hexec _ hd)
      simp [setTimer, hnow]
    · intro x hd
      obtain rfl := effect_of_exec (fun _ => id) (hexec _ hd)
      simp only [State.pc_endStep, State.pc_advance_skipIf, keyIs_iff, State.key_advance, State.key_supply,
        State.pc_supply, State.reg_advance, State.reg_supply]
    · intro x hd
      obtain rfl := effect_of_exec (fun _ => id) (hexec _ hd)
      simp only [State.pc_endStep, State.pc_advance_skipIf, Bool.not_eq_true', ← Bool.not_eq_true, keyIs_iff, ite_not,
        State.key_advance, State.key_supply, State.pc_supply, State.reg_advance, State.reg_supply]
    · intro x hd hk
      subst hk
      obtain ⟨-, rfl⟩ | ⟨k, h, -⟩ := effect_of_exec (fun _ => id) (hexec _ hd)
      · simp
      · simp at h
    · intro x k hd hk
      subst hk
      obtain ⟨h, -⟩ | ⟨k', h, rfl⟩ := effect_of_exec (fun _ => id) (hexec _ hd)
      · simp at h
      · obtain rfl : k = k' := by simpa using h
        refine ⟨rfl, rfl, ?_⟩
        rw [State.reg_endStep, State.reg_setMode, State.reg_setReg, if_pos rfl, toNat_extKey]
    · intro x kk hd
      obtain rfl := effect_of_exec (fun _ => id) (hexec _ hd)
      simp

end Sys2Proof.Machine
end

section
/-! PROOFS of the statements of spec/10_state.md. First the frame of one instruction: what each named update leaves the
same, then what each instruction does. Then two runs side by side: states alike in what is read stay alike. -/

namespace Sys2Proof.Claims

open Sys2Proof.Machine

/-! The frame of each named update: the pieces kept so far stay kept when the update's own piece may change -/

section Frame

variable {L : List Part} {s t : State}

theorem SameBut.refl (L : List Part) (s : State) : SameBut L s s := by
  intro p _
  cases p <;> simp [Part.Same]

theorem SameBut.setReg {x : Reg} {b : Byte} (hL : .regs ∈ L) (h : SameBut L s t) : SameBut L s (t.setReg x b) := by
  intro p hp
  cases p with
  | regs => exact absurd hL hp
  | _ => exact h _ hp

theorem SameBut.setRegsFrom {k : Nat} {bs : List Byte} (hL : .regs ∈ L) (h : SameBut L s t) :
    SameBut L s (t.setRegsFrom k bs) := by
  induction bs generalizing t k with
  | nil => exact h
  | cons b bs ih => exact ih (h.setReg hL)

theorem SameBut.setI {a : Word} (hL : .index ∈ L) (h : SameBut L s t) : SameBut L s (t.setI a) := by
  intro p hp
  cases p with
  | index => exact absurd hL hp
  | _ => exact h _ hp

/-- `PC` is none of the pieces. -/
theorem SameBut.jump {a : Word} (h : SameBut L s t) : SameBut L s (t.jump a) := by
  intro p hp
  cases p <;> exact h _ hp

theorem SameBut.skipIf {c : Bool} (h : SameBut L s t) : SameBut L s (t.skipIf c) := by
  cases c
  · exact h
  · exact h.jump

theorem SameBut.setMem {m : Memory} (hL : .memory ∈ L) (h : SameBut L s t) : SameBut L s (t.setMem m) := by
  intro p hp
  cases p with
  | memory => exact absurd hL hp
  | _ => exact h _ hp

theorem SameBut.setMode {m : Mode} (hL : .mode ∈ L) (h : SameBut L s t) : SameBut L s (t.setMode m) := by
  intro p hp
  cases p with
  | mode => exact absurd hL hp
  | _ => exact h _ hp

theorem SameBut.setFb {f : FrameBuffer} (hL : .screen ∈ L) (h : SameBut L s t) : SameBut L s (t.setFb f) := by
  intro p hp
  cases p with
  | screen => exact absurd hL hp
  | _ => exact h _ hp

theorem SameBut.setDelay {l : TimerLatch} (hL : .delay ∈ L) (h : SameBut L s t) : SameBut L s (t.setDelay l) := by
  intro p hp
  cases p with
  | delay => exact absurd hL hp
  | _ => exact h _ hp

theorem SameBut.setSound {l : TimerLatch} (hL : .sound ∈ L) (h : SameBut L s t) : SameBut L s (t.setSound l) := by
  intro p hp
  cases p with
  | sound => exact absurd hL hp
  | _ => exact h _ hp

theorem SameBut.setEntry {k : Fin 16} {a : Word} (hL : .stack ∈ L) (h : SameBut L s t) :
    SameBut L s (t.setEntry k a) := by
  intro p hp
  cases p with
  | stack => exact absurd hL hp
  | _ => exact h _ hp

theorem SameBut.setSp {n : Fin 17} (hL : .stack ∈ L) (h : SameBut L s t) : SameBut L s (t.setSp n) := by
  intro p hp
  cases p with
  | stack => exact absurd hL hp
  | _ => exact h _ hp

theorem SameBut.latchFault {r : FaultRecord} (hL : .fault ∈ L) (h : SameBut L s t) :
    SameBut L s (t.latchFault r) := by
  intro p hp
  cases p with
  | fault => exact absurd hL hp
  | _ => exact h _ hp

end Frame

/-! The frame of an instruction -/

/-- The effect of an instruction stays inside the pieces its row names. -/
theorem effect_frame {i : Instr} {s t : State} (he : Effect i s t) : SameBut (mayChange i) s t := by
  have h := SameBut.refl (mayChange i) s
  cases i <;> simp only [mayChange] at h ⊢
  case cls => obtain rfl := he; exact h.setFb (by decide)
  case ret => obtain ⟨_, rfl⟩ := he; exact (h.setSp (by decide)).jump
  case call => obtain ⟨_, rfl⟩ := he; exact ((h.setEntry (by decide)).setSp (by decide)).jump
  case jp | jpV0 => obtain rfl := he; exact h.jump
  case seKk | sneKk | seVy | sneVy | skp | sknp => obtain rfl := he; exact h.skipIf
  case ldKk | addKk | ldVy | orVy | andVy | xorVy | rnd | ldVxDt => obtain rfl := he; exact h.setReg (by decide)
  case addVy | sub | subn | shr | shl => obtain rfl := he; exact (h.setReg (by decide)).setReg (by decide)
  case ldI | ldF => obtain rfl := he; exact h.setI (by decide)
  case addI => obtain ⟨_, -, -, rfl⟩ := he; exact h.setI (by decide)
  case drw => obtain ⟨-, rfl⟩ := he; exact (h.setFb (by decide)).setReg (by decide)
  case ldVxK =>
    obtain ⟨-, rfl⟩ | ⟨_, -, rfl⟩ := he
    · exact h.jump.setMode (by decide)
    · exact (h.setReg (by decide)).setMode (by decide)
  case ldDtVx => obtain rfl := he; exact h.setDelay (by decide)
  case ldStVx => obtain rfl := he; exact h.setSound (by decide)
  case ldB | stRegs => obtain ⟨-, rfl⟩ := he; exact h.setMem (by decide)
  case ldRegs => obtain ⟨-, rfl⟩ := he; exact h.setRegsFrom (by decide)

/-- Only an instruction whose row names the latch has a check that fails. -/
theorem fault_mem_mayChange {i : Instr} {s : State} {c : Cause} (h : FailsWith i s c) : .fault ∈ mayChange i := by
  cases i <;> simp only [mayChange]
  case ret | call | addI | ldB | stRegs | ldRegs | drw => decide
  all_goals exact h.elim

/-- Settles O20: an effect stays inside its row (`effect_frame`), and a fault taken changes the latch alone. -/
theorem eachPieceHasOnlyItsWriters : Obligations.EachPieceHasOnlyItsWriters := by
  intro i s t h
  obtain ⟨c, hc, rfl⟩ | he := exec_cases i s t h
  · exact (SameBut.refl _ s).jump.latchFault (fault_mem_mayChange hc)
  · exact effect_frame he

/-- The registers an effect leaves alone: all of them where the row names none, else those that are not in R11's column
"writes". -/
theorem effect_reg_of_not_writes {i : Instr} {s t : State} {r : Reg} (he : Effect i s t) (hw : ¬ writes i r) :
    t.reg r = s.reg r := by
  have hframe := effect_frame he .regs
  cases i <;> simp only [mayChange] at hframe
  case ldKk | addKk | ldVy | orVy | andVy | xorVy | rnd | ldVxDt =>
    obtain rfl := he
    rw [State.reg_setReg, if_neg (Ne.symm hw)]
  case addVy x _ | sub x _ | subn x _ =>
    obtain rfl := he
    obtain ⟨hx, hf⟩ : r ≠ x ∧ r ≠ Config.flagReg := not_or.1 hw
    rw [State.reg_setResultThenFlag, if_neg (Ne.symm hf), if_neg (Ne.symm hx)]
  case shr x _ | shl x _ =>
    obtain rfl := he
    obtain ⟨hx, hf⟩ : r ≠ x ∧ r ≠ Config.flagReg := not_or.1 hw
    rw [State.reg_setFlagThenResult, if_neg (Ne.symm hx), if_neg (Ne.symm hf)]
  case drw =>
    obtain ⟨-, rfl⟩ := he
    have hf : r ≠ Config.flagReg := hw
    rw [State.reg_setFlag, if_neg (Ne.symm hf), State.reg_setFb]
  case ldVxK =>
    obtain ⟨-, rfl⟩ | ⟨_, -, rfl⟩ := he
    · rfl
    · rw [State.reg_setMode, State.reg_setReg, if_neg (Ne.symm hw)]
  case ldRegs x =>
    obtain ⟨-, rfl⟩ := he
    have hx : x.toNat < 16 := x.isLt
    have hr : x.toNat < r.toNat := Nat.lt_of_not_le hw
    rw [State.reg_setRegsFrom _ _ _ (by rw [Memory.length_readBytes]; omega),
      dif_neg (by rw [Memory.length_readBytes]; omega)]
  all_goals exact hframe (by decide) r

/-- Settles O18: a fault taken writes no register, and an effect those of its row (`effect_reg_of_not_writes`). -/
theorem onlyNamedRegistersAreWritten : Obligations.OnlyNamedRegistersAreWritten := by
  intro i s t r h hw
  obtain ⟨c, -, rfl⟩ | he := exec_cases i s t h
  · rw [State.reg_latchFault, State.reg_rewind]
  · exact effect_reg_of_not_writes he hw

/-! The live stack entries -/

/-- No instruction changes an entry below SP: 2nnn writes the one at SP, and no other writes any. -/
theorem exec_keeps_live_entry {i : Instr} {s t : State} (h : exec i s = .next t) (k : Fin 16)
    (hk : k.val < s.sp.val) : t.stack[k] = s.stack[k] := by
  have hframe := eachPieceHasOnlyItsWriters i s t h .stack
  obtain ⟨c, -, rfl⟩ | he := exec_cases i s t h
  · rfl
  · cases i <;> simp only [mayChange] at hframe
    case ret => obtain ⟨_, rfl⟩ := he; rfl
    case call =>
      obtain ⟨hlt, rfl⟩ := he
      exact Vector.getElem_set_ne hlt k.isLt (Nat.ne_of_gt hk)
    all_goals exact (hframe (by decide)).2 k

/-- Settles O60: of the four things a step can do, only running an instruction could touch the stack. -/
theorem liveStackEntriesAreKept : Obligations.LiveStackEntriesAreKept := by
  intro s t h k hk
  obtain ⟨-, hs⟩ | ⟨-, -, hs⟩ | ⟨w, -, -, -, hs⟩ | ⟨w, i, -, -, -, hs⟩ := step_cases s
  · obtain rfl : s = t := Host.Outcome.next.inj (hs.symm.trans h)
    rfl
  · obtain ⟨u, hu, rfl⟩ := (endStepOf_eq_next _ _).1 (hs.symm.trans h)
    obtain rfl := Host.Outcome.next.inj ((raiseFetch_eq s).symm.trans hu)
    rfl
  · obtain rfl := Host.Outcome.next.inj (hs.symm.trans h)
    rfl
  · obtain ⟨u, hu, rfl⟩ := (endStepOf_eq_next _ _).1 (hs.symm.trans h)
    exact exec_keeps_live_entry hu k hk

/-! Two runs side by side -/

/-- Two runs, begun in s and s', have come to t and t': the same `PC`, SP and live stack entries, every piece but those
of D the same, and each register either the same in both or in both as it was at the start. -/
structure Follows (D : List Part) (s s' t t' : State) : Prop where
  pc : t'.pc = t.pc
  sp : t'.sp = t.sp
  live : ∀ k : Fin 16, k.val < t.sp.val → t'.stack[k] = t.stack[k]
  parts : SameBut D t t'
  regs : ∀ r, t'.reg r = t.reg r ∨ (t.reg r = s.reg r ∧ t'.reg r = s'.reg r)

section Follows

variable {D : List Part} {s s' t t' : State}

/-- Two runs may be taken to begin where they are. -/
theorem Follows.restart (h : Follows D s s' t t') : Follows D t t' t t' :=
  { h with regs := fun _ => .inr ⟨rfl, rfl⟩ }

theorem Follows.setReg (x : Reg) {b b' : Byte} (hb : b' = b) (h : Follows D s s' t t') :
    Follows D s s' (t.setReg x b) (t'.setReg x b') := by
  subst hb
  refine ⟨h.pc, h.sp, h.live, ?_, fun r => ?_⟩
  · intro p hp
    cases p with
    | regs =>
      intro r
      rw [State.reg_setReg, State.reg_setReg, h.parts .regs hp r]
    | _ => exact h.parts _ hp
  · rw [State.reg_setReg, State.reg_setReg]
    by_cases hx : x = r
    · rw [if_pos hx, if_pos hx]
      exact .inl rfl
    · rw [if_neg hx, if_neg hx]
      exact h.regs r

theorem Follows.setFlag {f f' : Bool} (hf : f' = f) (h : Follows D s s' t t') :
    Follows D s s' (t.setFlag f) (t'.setFlag f') :=
  h.setReg Config.flagReg (congrArg flagByte hf)

theorem Follows.setRegsFrom (k : Nat) {bs bs' : List Byte} (hb : bs' = bs) (h : Follows D s s' t t') :
    Follows D s s' (t.setRegsFrom k bs) (t'.setRegsFrom k bs') := by
  subst hb
  induction bs' generalizing t t' k with
  | nil => exact h
  | cons b bs ih => exact ih _ (h.setReg _ rfl)

theorem Follows.setI {a a' : Word} (ha : a' = a) (h : Follows D s s' t t') :
    Follows D s s' (t.setI a) (t'.setI a') := by
  refine ⟨h.pc, h.sp, h.live, fun p hp => ?_, h.regs⟩
  cases p with
  | index => exact ha
  | _ => exact h.parts _ hp

theorem Follows.jump {a a' : Word} (ha : a' = a) (h : Follows D s s' t t') :
    Follows D s s' (t.jump a) (t'.jump a') := by
  refine ⟨ha, h.sp, h.live, fun p hp => ?_, h.regs⟩
  cases p <;> exact h.parts _ hp

theorem Follows.advance (h : Follows D s s' t t') : Follows D s s' t.advance t'.advance :=
  h.jump (congrArg (· + 2) h.pc)

theorem Follows.rewind (h : Follows D s s' t t') : Follows D s s' t.rewind t'.rewind :=
  h.jump (congrArg (· - 2) h.pc)

theorem Follows.skipIf {c c' : Bool} (hc : c' = c) (h : Follows D s s' t t') :
    Follows D s s' (t.skipIf c) (t'.skipIf c') := by
  subst hc
  cases c'
  · exact h
  · exact h.advance

theorem Follows.setMem {m m' : Memory} (hm : ∀ a, m'.read a = m.read a) (h : Follows D s s' t t') :
    Follows D s s' (t.setMem m) (t'.setMem m') := by
  refine ⟨h.pc, h.sp, h.live, fun p hp => ?_, h.regs⟩
  cases p with
  | memory => exact hm
  | _ => exact h.parts _ hp

theorem Follows.setMode (m : Mode) (h : Follows D s s' t t') : Follows D s s' (t.setMode m) (t'.setMode m) := by
  refine ⟨h.pc, h.sp, h.live, fun p hp => ?_, h.regs⟩
  cases p with
  | mode => rfl
  | _ => exact h.parts _ hp

theorem Follows.setFb {f f' : FrameBuffer} (hf : f' = f) (h : Follows D s s' t t') :
    Follows D s s' (t.setFb f) (t'.setFb f') := by
  subst hf
  refine ⟨h.pc, h.sp, h.live, fun p hp => ?_, h.regs⟩
  cases p with
  | screen => exact fun _ _ => rfl
  | _ => exact h.parts _ hp

theorem Follows.setDelay {l l' : TimerLatch} (hl : l' = l) (h : Follows D s s' t t') :
    Follows D s s' (t.setDelay l) (t'.setDelay l') := by
  refine ⟨h.pc, h.sp, h.live, fun p hp => ?_, h.regs⟩
  cases p with
  | delay => exact hl
  | _ => exact h.parts _ hp

theorem Follows.setSound {l l' : TimerLatch} (hl : l' = l) (h : Follows D s s' t t') :
    Follows D s s' (t.setSound l) (t'.setSound l') := by
  refine ⟨h.pc, h.sp, h.live, fun p hp => ?_, h.regs⟩
  cases p with
  | sound => exact hl
  | _ => exact h.parts _ hp

/-- SP going down leaves fewer live entries. -/
theorem Follows.setSp {n n' : Fin 17} (hn : n' = n) (hle : n.val ≤ t.sp.val) (h : Follows D s s' t t') :
    Follows D s s' (t.setSp n) (t'.setSp n') := by
  refine ⟨h.pc, hn, fun k hk => h.live k (Nat.lt_of_lt_of_le hk hle), fun p hp => ?_, h.regs⟩
  cases p with
  | stack => exact ⟨hn, (h.parts .stack hp).2⟩
  | _ => exact h.parts _ hp

/-- A push makes the entry it writes live. -/
theorem Follows.push {a a' : Word} (ha : a' = a) (hlt : t.sp.val < 16) (hlt' : t'.sp.val < 16)
    (h : Follows D s s' t t') :
    Follows D s s' ((t.setEntry ⟨t.sp.val, hlt⟩ a).setSp ⟨t.sp.val + 1, by omega⟩)
      ((t'.setEntry ⟨t'.sp.val, hlt'⟩ a').setSp ⟨t'.sp.val + 1, by omega⟩) := by
  subst ha
  have hsp : t'.sp.val = t.sp.val := congrArg Fin.val h.sp
  have hsp' : (⟨t'.sp.val + 1, by omega⟩ : Fin 17) = ⟨t.sp.val + 1, by omega⟩ := Fin.ext (congrArg (· + 1) hsp)
  have hentry : ∀ k : Fin 16, (t.sp.val ≠ k.val → t'.stack[k] = t.stack[k]) →
      (t'.setEntry ⟨t'.sp.val, hlt'⟩ a').stack[k] = (t.setEntry ⟨t.sp.val, hlt⟩ a').stack[k] := by
    intro k hk
    simp only [State.stack_setEntry, Fin.getElem_fin, Vector.getElem_set, hsp]
    split
    · rfl
    · exact hk ‹_›
  refine ⟨h.pc, hsp', fun k hk => hentry k fun hne => h.live k ?_, fun p hp => ?_, h.regs⟩
  · have : k.val < t.sp.val + 1 := hk
    omega
  · cases p with
    | stack => exact ⟨hsp', fun k => hentry k fun _ => (h.parts .stack hp).2 k⟩
    | _ => exact h.parts _ hp

theorem Follows.latchFault {r r' : FaultRecord} (hr : r' = r) (h : Follows D s s' t t') :
    Follows D s s' (t.latchFault r) (t'.latchFault r') := by
  refine ⟨h.pc, h.sp, h.live, fun p hp => ?_, h.regs⟩
  cases p with
  | fault => exact congrArg some hr
  | _ => exact h.parts _ hp

theorem Follows.diagnose {a a' : Word} (ha : a' = a) (w : Word) (h : Follows D s s' t t') :
    Follows D s s' (t.diagnose a w) (t'.diagnose a' w) := by
  subst ha
  refine ⟨h.pc, h.sp, h.live, fun p hp => ?_, h.regs⟩
  cases p with
  | diag => exact congrArg (· ++ [(a', w)]) (h.parts .diag hp)
  | _ => exact h.parts _ hp

theorem Follows.endStep (h : Follows D s s' t t') : Follows D s s' t.endStep t'.endStep := by
  refine ⟨h.pc, h.sp, h.live, fun p hp => ?_, h.regs⟩
  cases p with
  | env =>
    have henv : t'.env = t.env := h.parts .env hp
    simp only [Part.Same, State.env_endStep, henv, State.now_of_env _ henv]
  | _ => exact h.parts _ hp

end Follows

/-! What an instruction reads is the same in two states alike in it -/

/-- The pieces some instruction reads, beside `PC`, the registers it names and the live stack entries. -/
def partsRead : List Part := [.index, .memory, .screen, .delay, .env]

theorem readBytes_congr {m m' : Memory} (hm : ∀ a, m'.read a = m.read a) (a n : Nat) :
    m'.readBytes a n = m.readBytes a n := by
  simp only [Memory.readBytes, hm]

theorem read_writeBytes_congr {m m' : Memory} (hm : ∀ a, m'.read a = m.read a) (a : Nat) (bs : List Byte) (c : Nat) :
    (m'.writeBytes a bs).read c = (m.writeBytes a bs).read c := by
  rw [Memory.read_writeBytes, Memory.read_writeBytes, hm]

theorem regsUpTo_congr {s s' : State} {x : Reg} (h : ∀ r : Reg, r.toNat ≤ x.toNat → s'.reg r = s.reg r) :
    s'.regsUpTo x = s.regsUpTo x := by
  refine List.ext_getElem (by simp) fun k hk _ => ?_
  rw [State.length_regsUpTo] at hk
  rw [State.getElem_regsUpTo, State.getElem_regsUpTo]
  exact h _ ((Nat.mod_le _ _).trans (by omega))

/-- The fetch reads `PC` and Memory byte by byte. -/
theorem fetch_of_same {s s' : State} (hpc : s'.pc = s.pc) (hm : Part.memory.Same s s') : fetch s' = fetch s := by
  simp only [fetch, hpc, hm _]

section TwoRuns

variable {D : List Part} {i : Instr} {s s' t t' : State}

/-- An instruction's check reads SP, `I` and the registers it names. -/
theorem failsWith_congr (hD : ∀ p ∈ partsRead, p ∉ D) (h : Follows D s s' s s')
    (hr : ∀ r, reads i r → s'.reg r = s.reg r) (c : Cause) : FailsWith i s' c ↔ FailsWith i s c := by
  have hi : s'.i = s.i := h.parts .index (hD _ (by decide))
  cases i
  case ret | call => simp only [FailsWith, h.sp]
  case addI x => simp only [FailsWith, hi, hr x rfl]
  case ldB | stRegs | ldRegs | drw => simp only [FailsWith, hi]
  all_goals exact Iff.rfl

/-- The same effect on two states alike in what the instruction reads leaves them alike: its operands are the same, so
it makes the same named updates. -/
theorem effect_follows (hD : ∀ p ∈ partsRead, p ∉ D) (h : Follows D s s' s s')
    (hr : ∀ r, reads i r → s'.reg r = s.reg r) (he : Effect i s t) (he' : Effect i s' t') :
    Follows D s s' t t' := by
  have hi : s'.i = s.i := h.parts .index (hD _ (by decide))
  have hmem : ∀ a, s'.mem.read a = s.mem.read a := h.parts .memory (hD _ (by decide))
  have hfb : s'.fb = s.fb := FrameBuffer.ext_pixel (h.parts .screen (hD _ (by decide)))
  have hdt : s'.dt = s.dt := h.parts .delay (hD _ (by decide))
  have henv : s'.env = s.env := h.parts .env (hD _ (by decide))
  have hnow := State.now_of_env _ henv
  have hkey := State.key_of_env _ henv
  cases i
  case cls => obtain rfl := he; obtain rfl := he'; exact h.setFb rfl
  case ret =>
    obtain ⟨h0, rfl⟩ := he
    obtain ⟨_, rfl⟩ := he'
    have hlive := h.live ⟨s.sp.val - 1, by omega⟩ (Nat.sub_lt h0 Nat.one_pos)
    refine (h.setSp ?_ (Nat.sub_le _ _)).jump ?_
    · simp only [h.sp]
    · simpa only [h.sp, Fin.getElem_fin] using hlive
  case call =>
    obtain ⟨hlt, rfl⟩ := he
    obtain ⟨hlt', rfl⟩ := he'
    exact (h.push h.pc hlt hlt').jump rfl
  case jp => obtain rfl := he; obtain rfl := he'; exact h.jump rfl
  case jpV0 => obtain rfl := he; obtain rfl := he'; exact h.jump (by rw [hr 0 rfl])
  case seKk x _ | sneKk x _ => obtain rfl := he; obtain rfl := he'; exact h.skipIf (by rw [hr x rfl])
  case skp x | sknp x => obtain rfl := he; obtain rfl := he'; exact h.skipIf (by rw [hr x rfl, hkey])
  case seVy x y | sneVy x y =>
    obtain rfl := he
    obtain rfl := he'
    exact h.skipIf (by rw [hr x (.inl rfl), hr y (.inr rfl)])
  case ldKk => obtain rfl := he; obtain rfl := he'; exact h.setReg _ rfl
  case addKk x _ | ldVy _ x => obtain rfl := he; obtain rfl := he'; exact h.setReg _ (by rw [hr x rfl])
  case orVy x y | andVy x y | xorVy x y =>
    obtain rfl := he
    obtain rfl := he'
    exact h.setReg _ (by rw [hr x (.inl rfl), hr y (.inr rfl)])
  case rnd => obtain rfl := he; obtain rfl := he'; exact h.setReg _ (by rw [State.rand_of_env _ henv])
  case ldVxDt => obtain rfl := he; obtain rfl := he'; exact h.setReg _ (by rw [hdt, hnow])
  case addVy x y | sub x y | subn x y =>
    obtain rfl := he
    obtain rfl := he'
    rw [hr x (.inl rfl), hr y (.inr rfl)]
    exact (h.setReg _ rfl).setFlag rfl
  case shr x _ | shl x _ =>
    obtain rfl := he
    obtain rfl := he'
    have hx := hr x rfl
    exact (h.setFlag (by rw [hx])).setReg _ (by simp only [hx])
  case ldI => obtain rfl := he; obtain rfl := he'; exact h.setI rfl
  case ldF x => obtain rfl := he; obtain rfl := he'; exact h.setI (by rw [hr x rfl])
  case addI x =>
    obtain ⟨a, -, ha, rfl⟩ := he
    obtain ⟨a', -, ha', rfl⟩ := he'
    exact h.setI (BitVec.eq_of_toNat_eq (by rw [ha, ha', hi, hr x rfl]))
  case drw x y n =>
    obtain ⟨-, rfl⟩ := he
    obtain ⟨-, rfl⟩ := he'
    rw [hfb, hi, hr x (.inl rfl), hr y (.inr rfl), readBytes_congr hmem]
    exact (h.setFb rfl).setFlag rfl
  case ldVxK x =>
    obtain ⟨hk, rfl⟩ | ⟨k, hk, rfl⟩ := he
    · obtain ⟨-, rfl⟩ | ⟨k', hk', -⟩ := he'
      · exact h.rewind.setMode _
      · exact absurd (hk'.symm.trans (hkey.trans hk)) (Option.some_ne_none k')
    · obtain ⟨hk', -⟩ | ⟨k', hk', rfl⟩ := he'
      · exact absurd (hk.symm.trans (hkey.symm.trans hk')) (Option.some_ne_none k)
      · obtain rfl : k' = k := Option.some.inj (hk'.symm.trans (hkey.trans hk))
        exact (h.setReg x rfl).setMode _
  case ldDtVx x => obtain rfl := he; obtain rfl := he'; exact h.setDelay (by rw [hr x rfl, hnow])
  case ldStVx x => obtain rfl := he; obtain rfl := he'; exact h.setSound (by rw [hr x rfl, hnow])
  case ldB x =>
    obtain ⟨-, rfl⟩ := he
    obtain ⟨-, rfl⟩ := he'
    rw [hi, hr x rfl]
    exact h.setMem (read_writeBytes_congr hmem _ _)
  case stRegs x =>
    obtain ⟨-, rfl⟩ := he
    obtain ⟨-, rfl⟩ := he'
    rw [hi, regsUpTo_congr hr]
    exact h.setMem (read_writeBytes_congr hmem _ _)
  case ldRegs x =>
    obtain ⟨-, rfl⟩ := he
    obtain ⟨-, rfl⟩ := he'
    rw [hi, readBytes_congr hmem]
    exact h.setRegsFrom 0 rfl

/-- An instruction run on two states alike in what it reads answers in both, by its fault or its effect in both, and
leaves them alike. -/
theorem exec_follows (i : Instr) (hD : ∀ p ∈ partsRead, p ∉ D) (h : Follows D s s' s s')
    (hr : ∀ r, reads i r → s'.reg r = s.reg r) :
    ∃ t t', exec i s = .next t ∧ exec i s' = .next t' ∧ Follows D s s' t t' := by
  have hfails := failsWith_congr hD h hr
  by_cases hf : ∃ c, FailsWith i s c
  · obtain ⟨c, hc⟩ := hf
    exact ⟨_, _, exec_of_fails i s c hc, exec_of_fails i s' c ((hfails c).2 hc),
      h.rewind.latchFault (by rw [h.pc])⟩
  · obtain ⟨t, ht, he⟩ := exec_of_not_fails i s fun c hc => hf ⟨c, hc⟩
    obtain ⟨t', ht', he'⟩ := exec_of_not_fails i s' fun c hc => hf ⟨c, (hfails c).1 hc⟩
    exact ⟨t, t', ht, ht', effect_follows hD h hr he he'⟩

end TwoRuns

/-- Settles O19: with the registers alone free to differ, the two runs stay alike (`exec_follows`), and a register the
row does not name as written is in both as it was (`onlyNamedRegistersAreWritten`). -/
theorem onlyNamedRegistersAreRead : Obligations.OnlyNamedRegistersAreRead := by
  intro i s s' hpc hsame hr
  obtain ⟨hsp, hstack⟩ : Part.stack.Same s s' := hsame .stack (by decide)
  have hstart : Follows [.regs] s s' s s' := ⟨hpc, hsp, fun k _ => hstack k, hsame, fun _ => .inr ⟨rfl, rfl⟩⟩
  obtain ⟨t, t', ht, ht', h⟩ := exec_follows i (by decide) hstart hr
  refine ⟨t, t', ht, ht', h.pc, h.parts, fun r => ?_⟩
  by_cases hw : writes i r
  · exact (h.regs r).imp_left fun e => ⟨e, hw⟩
  · exact .inr ⟨onlyNamedRegistersAreWritten i s t r ht hw, onlyNamedRegistersAreWritten i s' t' r ht' hw⟩

/-! The step, by the latch, the fetch and the decoder -/

section Step

variable {s : State} {w : Word}

theorem step_of_halted {r : FaultRecord} (hf : s.fault = some r) : step s = .next s := by
  simp only [step, hf]

theorem step_of_no_fetch (hf : s.fault = none) (hw : fetch s = none) :
    step s = .next (s.latchFault ⟨.fetchOutOfRange, s.pc, none⟩).endStep := by
  simp only [step, hf, hw, raiseFetch, endStepOf]

theorem step_of_unrecognized {e : DecodeError} (hf : s.fault = none) (hw : fetch s = some w)
    (hd : decodeWord w = .error e) : step s = .next (s.advance.diagnose s.pc w).endStep := by
  simp only [step, hf, hw, hd, endStepOf]

theorem step_of_exec {i : Instr} {t : State} (hf : s.fault = none) (hw : fetch s = some w)
    (hd : decodeWord w = .ok i) (ht : exec i s.advance = .next t) : step s = .next t.endStep := by
  simp only [step, hf, hw, hd, ht, endStepOf]

end Step

/-- Runs alike but for the stack's array, the mode, the sound timer and `DIAG` agree on what is read. -/
theorem Follows.agree {a b s t : State} (h : Follows [.stack, .mode, .sound, .diag] a b s t) :
    AgreeOnWhatIsRead s t :=
  ⟨h.live, h.sp, h.pc, h.parts⟩

/-- Settles O17. The latch, the fetched word and so the decoded instruction are the same in both states; each way
through the step then makes the same updates on both, the instruction by `exec_follows`. -/
theorem modeSoundDiagAndDeadEntriesAreNeverRead : Obligations.ModeSoundDiagAndDeadEntriesAreNeverRead := by
  intro s t hagree
  obtain ⟨hlive, hsp, hpc, hsame⟩ := hagree
  have h : Follows [.stack, .mode, .sound, .diag] s t s t := ⟨hpc, hsp, hlive, hsame, fun _ => .inr ⟨rfl, rfl⟩⟩
  have hfault : t.fault = s.fault := hsame .fault (by decide)
  have hfetch : fetch t = fetch s := fetch_of_same hpc (hsame .memory (by decide))
  cases hf : s.fault with
  | some r => exact ⟨s, t, step_of_halted hf, step_of_halted (hfault.trans hf), h.agree⟩
  | none =>
    have hf' := hfault.trans hf
    cases hw : fetch s with
    | none =>
      exact ⟨_, _, step_of_no_fetch hf hw, step_of_no_fetch hf' (hfetch.trans hw),
        (h.latchFault (by rw [hpc])).endStep.agree⟩
    | some w =>
      have hw' := hfetch.trans hw
      cases hd : decodeWord w with
      | error e =>
        exact ⟨_, _, step_of_unrecognized hf hw hd, step_of_unrecognized hf' hw' hd,
          (h.advance.diagnose hpc w).endStep.agree⟩
      | ok i =>
        have hadv := h.advance.restart
        obtain ⟨u, u', hu, hu', hfollows⟩ :=
          exec_follows i (by decide) hadv fun r _ => hadv.parts .regs (by decide) r
        exact ⟨_, _, step_of_exec hf hw hd hu, step_of_exec hf' hw' hd hu', hfollows.endStep.agree⟩

end Sys2Proof.Claims
end

section
/-! PROOFS of the statements of spec/20_memory.md. First what an instruction, and so a step, does to Memory, said
once: it leaves it alone, or it stores the bytes its row names at `I`. Then the word two bytes form, and the fault at the
fetch. -/

namespace Sys2Proof.Claims

open Sys2Proof.Machine

/-! What an instruction stores -/

/-- Memory of t is that of s with the bytes of the instruction stored at `I`, inside Memory where there are any (R43,
R46), and the latch is as before. For an instruction that stores nothing, Memory is the same list. -/
structure Stores (i : Instr) (s t : State) : Prop where
  fits : storedBytes i = 0 ∨ s.i.toNat + storedBytes i ≤ Config.memSize
  mem : t.mem = s.mem.writeBytes s.i.toNat (storedList i s)
  fault : t.fault = s.fault

/-- The count of R45 is the number of the bytes stored. -/
theorem length_storedList (i : Instr) (s : State) : (storedList i s).length = storedBytes i := by
  cases i
  case stRegs x => simp only [storedList, storedBytes, List.length_map, List.length_range]
  all_goals rfl

theorem regsUpTo_eq_storedList (x : Reg) (s : State) : s.regsUpTo x = storedList (.stRegs x) s := by
  refine List.ext_getElem (by simp [storedList]) fun k hk _ => ?_
  rw [State.getElem_regsUpTo]
  simp only [storedList, List.getElem_map, List.getElem_range]

section Stores

variable {i : Instr} {s t : State}

/-- Every effect stores the bytes of its row; no effect sets the latch. -/
theorem effect_stores (he : Effect i s t) : Stores i s t := by
  cases i
  case ldB => obtain ⟨hfits, rfl⟩ := he; exact ⟨.inr hfits, rfl, rfl⟩
  case stRegs x =>
    obtain ⟨hfits, rfl⟩ := he
    exact ⟨.inr hfits, by rw [State.mem_setMem, regsUpTo_eq_storedList], rfl⟩
  case ret | call => obtain ⟨_, rfl⟩ := he; exact ⟨.inl rfl, rfl, rfl⟩
  case addI => obtain ⟨_, -, -, rfl⟩ := he; exact ⟨.inl rfl, rfl, rfl⟩
  case drw => obtain ⟨-, rfl⟩ := he; exact ⟨.inl rfl, rfl, rfl⟩
  case ldRegs =>
    obtain ⟨-, rfl⟩ := he
    exact ⟨.inl rfl, State.mem_setRegsFrom _ _ _, State.fault_setRegsFrom _ _ _⟩
  case ldVxK => obtain ⟨-, rfl⟩ | ⟨_, -, rfl⟩ := he <;> exact ⟨.inl rfl, rfl, rfl⟩
  case seKk | sneKk | seVy | sneVy | skp | sknp =>
    obtain rfl := he
    exact ⟨.inl rfl, State.mem_skipIf _ _, State.fault_skipIf _ _⟩
  all_goals obtain rfl := he; exact ⟨.inl rfl, rfl, rfl⟩

theorem Stores.read_outside (h : Stores i s t) {a : Nat} (ha : a < s.i.toNat ∨ s.i.toNat + storedBytes i ≤ a) :
    t.mem.read a = s.mem.read a := by
  rw [h.mem, Memory.read_writeBytes_of_not_mem _ _ _ _ (by rwa [length_storedList])]

/-- Each byte reads as the statements name it: the stored one where one is stored, else the one before. -/
theorem Stores.read_eq_byteAfter (h : Stores i s t) (a : Nat) : t.mem.read a = byteAfter i s a := by
  rw [h.mem, Memory.read_writeBytes, byteAfter]
  by_cases hlo : s.i.toNat ≤ a
  · rw [if_pos hlo]
    by_cases hhi : a < s.i.toNat + (storedList i s).length
    · rw [dif_pos ⟨hlo, hhi⟩, List.getElem?_eq_getElem (by omega), Option.getD_some]
    · rw [dif_neg fun hin => hhi hin.2, List.getElem?_eq_none (by omega), Option.getD_none]
  · rw [if_neg hlo, dif_neg fun hin => hlo hin.1]

theorem Stores.wf (h : Stores i s t) (hs : s.mem.wf = true) : t.mem.wf = true := by
  rw [h.mem]
  obtain hnone | hfits := h.fits
  · rwa [List.length_eq_zero_iff.1 ((length_storedList i s).trans hnone)]
  · exact Memory.wf_writeBytes _ _ _ (by rwa [length_storedList]) hs

/-- An instruction leaves Memory alone, which is what its fault does (R86), or stores its bytes and raises nothing. -/
theorem exec_mem_cases (h : exec i s = .next t) : t.mem = s.mem ∨ Stores i s t := by
  obtain ⟨c, -, rfl⟩ | he := exec_cases i s t h
  · exact .inl rfl
  · exact .inr (effect_stores he)

/-- A step leaves Memory alone, or its instruction stores its bytes and raises nothing. -/
theorem step_mem_cases (h : step s = .next t) :
    t.mem = s.mem ∨
    ∃ w i, fetch s = some w ∧ decodeWord w = .ok i ∧ t.fault = none ∧ Stores i s t := by
  obtain ⟨-, hs⟩ | ⟨-, -, hs⟩ | ⟨w, -, -, -, hs⟩ | ⟨w, i, hf, hw, hd, hs⟩ := step_cases s
  · obtain rfl := Host.Outcome.next.inj (hs.symm.trans h)
    exact .inl rfl
  · obtain ⟨u, hu, rfl⟩ := (endStepOf_eq_next _ _).1 (hs.symm.trans h)
    obtain rfl := Host.Outcome.next.inj ((raiseFetch_eq s).symm.trans hu)
    exact .inl rfl
  · obtain rfl := Host.Outcome.next.inj (hs.symm.trans h)
    exact .inl rfl
  · obtain ⟨u, hu, rfl⟩ := (endStepOf_eq_next _ _).1 (hs.symm.trans h)
    obtain hsame | hst := exec_mem_cases hu
    · exact .inl hsame
    · have hlist : storedList i s.advance = storedList i s := by cases i <;> rfl
      exact .inr ⟨w, i, hw, hd, hst.fault.trans hf, hst.fits, hlist ▸ hst.mem, hst.fault⟩

end Stores

/-- Settles O21: Memory is left alone, or the bytes stored are those of the row (`exec_mem_cases`). -/
theorem onlyTheStoredBytesChange : Obligations.OnlyTheStoredBytesChange := by
  intro i s t h a ha
  obtain hsame | hst := exec_mem_cases h
  · rw [hsame]
  · exact hst.read_outside ha

/-- Settles O27: storing bytes that fit keeps the canonical form (`Stores.wf`), and nothing else touches Memory. -/
theorem memoryStaysCanonical : Obligations.MemoryStaysCanonical := by
  refine ⟨fun i s t hs h => ?_, fun s t hs h => ?_⟩
  · obtain hsame | hst := exec_mem_cases h
    · rwa [hsame]
    · exact hst.wf hs
  · obtain hsame | ⟨w, i, -, -, -, hst⟩ := step_mem_cases h
    · rwa [hsame]
    · exact hst.wf hs

/-! No load after a step -/

/-- A step of a running block ends with the host's side moved on. -/
theorem step_of_running {s t : State} (hf : s.fault = none) (h : step s = .next t) :
    ∃ u : State, t = u.endStep := by
  cases hw : fetch s with
  | none => exact ⟨_, Host.Outcome.next.inj (h.symm.trans (step_of_no_fetch hf hw))⟩
  | some w =>
    obtain ⟨u, hs, -⟩ := step_of_fetch hf hw
    exact ⟨u, Host.Outcome.next.inj (h.symm.trans hs)⟩

/-- Once the count of steps is not 0, `Load` is refused (R5). -/
theorem load_refused_of_tick {s : State} (image : List Byte) (ht : s.env.tick ≠ 0) :
    ∃ r, load image s = .refused r := by
  obtain ⟨-, e⟩ | ⟨-, -, e⟩ | ⟨-, h0, -⟩ | ⟨-, h0, -⟩ := load_cases image s
  · exact ⟨_, e⟩
  · exact ⟨_, e⟩
  all_goals exact absurd h0 ht

/-- Settles O24. The step has counted itself, so `Load` is refused; and a step that stores (`step_mem_cases`) runs the
instruction the fetched word decodes to, and leaves the latch clear. -/
theorem noLoadDuringARun : Obligations.NoLoadDuringARun := by
  refine ⟨fun s t image hf h => ?_, fun s t w i hw hd h a ha => ?_, fun s t h hcase a => ?_⟩
  · obtain ⟨u, rfl⟩ := step_of_running hf h
    exact load_refused_of_tick image (Nat.succ_ne_zero u.env.tick)
  · obtain hsame | ⟨w', j, hw', hd', -, hst⟩ := step_mem_cases h
    · rw [hsame]
    · obtain rfl : w = w' := Option.some.inj (hw.symm.trans hw')
      obtain rfl : i = j := Except.ok.inj (hd.symm.trans hd')
      exact hst.read_outside ha
  · obtain hsame | ⟨w, i, hw, hd, hnone, -⟩ := step_mem_cases h
    · rw [hsame]
    · obtain hfault | ⟨w', hw', hd'⟩ := hcase
      · exact absurd hnone hfault
      · obtain rfl : w = w' := Option.some.inj (hw.symm.trans hw')
        cases hd.symm.trans hd'

/-! The fetched word -/

/-- The word of two bytes, as a number (R42). -/
theorem toNat_wordOfBytes (hi lo : Byte) : (wordOfBytes hi lo).toNat = hi.toNat * 256 + lo.toNat := by
  rw [wordOfBytes, BitVec.toNat_append, ← Nat.shiftLeft_add_eq_or_of_lt lo.isLt, Nat.shiftLeft_eq]

/-- The fetch below 0xFFF gives the word of the two bytes at `PC`. -/
theorem fetch_of_le {s : State} (h : s.pc.toNat ≤ 0xFFE) : ∃ w, fetch s = some w ∧
    w.toNat = (s.mem.read s.pc.toNat).toNat * 256 + (s.mem.read (s.pc.toNat + 1)).toNat :=
  ⟨_, (fetch_eq_some s _).2 ⟨h, rfl⟩, toNat_wordOfBytes _ _⟩

/-- The fetch from a run of known bytes, k bytes into it. -/
theorem fetch_of_readBytes {s : State} {bs : List Byte} {a : Nat} (hbs : s.mem.readBytes a bs.length = bs)
    (p : Word) (k : Nat) (hk : k + 1 < bs.length) (hp : p.toNat = a + k) (hle : p.toNat ≤ 0xFFE) :
    fetch (s.jump p) = some (wordOfBytes bs[k] bs[k + 1]) := by
  have hbyte : ∀ j (hj : j < bs.length), s.mem.read (a + j) = bs[j] := fun j hj => by
    rw [← Memory.getElem_readBytes _ _ bs.length j (by rwa [Memory.length_readBytes])]
    simp only [hbs]
  refine (fetch_eq_some _ _).2 ⟨hle, ?_⟩
  rw [State.pc_jump, State.mem_jump, hp, hbyte k (by omega), Nat.add_assoc, hbyte (k + 1) hk]

/-- Settles O8: the word of two bytes (`toNat_wordOfBytes`), and the example's six bytes taken in pairs. -/
theorem fetchIsBigEndian : Obligations.FetchIsBigEndian := by
  refine ⟨fun s => fetch_of_le, fun s hbs => ?_⟩
  have hword := fetch_of_readBytes (bs := [0x60, 0x0A, 0x70, 0x05, 0x12, 0x00]) hbs
  exact ⟨(hword 0x200 0 (by decide) (by decide) (by decide)).trans (by decide),
    (hword 0x202 2 (by decide) (by decide) (by decide)).trans (by decide),
    (hword 0x204 4 (by decide) (by decide) (by decide)).trans (by decide)⟩

/-- A store that fits answers, and stores its bytes (R124, R125). -/
theorem exec_store_of_fits {x : Reg} {i : Instr} {s : State} (hi : i = .stRegs x ∨ i = .ldB x)
    (hfits : s.i.toNat + storedBytes i ≤ 0x1000) : ∃ t, exec i s = .next t ∧ Stores i s t := by
  have hok : ∀ c, ¬ FailsWith i s c := by
    intro c hc
    obtain rfl | rfl := hi <;> obtain ⟨-, hout⟩ := hc
    · have hfits : s.i.toNat + (x.toNat + 1) ≤ 0x1000 := hfits
      omega
    · have hfits : s.i.toNat + 3 ≤ 0x1000 := hfits
      omega
  obtain ⟨t, ht, he⟩ := exec_of_not_fails i s hok
  exact ⟨t, ht, effect_stores he⟩

/-- Settles O49. The store leaves each byte as `byteAfter` names it, the latch as it was, and the fetch reads what
Memory holds; the step there is then the decoded instruction or the report. -/
theorem storedBytesAreFetched : Obligations.StoredBytesAreFetched := by
  intro x i s hi hfits
  obtain ⟨t, ht, hst⟩ := exec_store_of_fits hi hfits
  refine ⟨t, ht, fun p hp => ?_⟩
  obtain ⟨w, hw, hval⟩ := fetch_of_le (s := t.jump p) hp
  refine ⟨w, hw, ?_, fun hf => ⟨fun j hd => ?_, fun hd => ?_⟩⟩
  · rw [← hst.read_eq_byteAfter, ← hst.read_eq_byteAfter]
    exact hval
  · obtain ⟨u, hu, -⟩ := exec_answers j (t.jump p).advance
    calc step (t.jump p) = .next u.endStep := step_of_exec (hst.fault.trans hf) hw hd hu
      _ = endStepOf (exec j (t.jump p).advance) := by rw [hu, endStepOf]
  · exact ⟨_, step_of_unrecognized (s := t.jump p) (hst.fault.trans hf) hw hd, rfl, rfl⟩

/-! The fault at the fetch -/

theorem SameBut.endStep {L : List Part} {s t : State} (hL : .env ∈ L) (h : SameBut L s t) :
    SameBut L s t.endStep := by
  intro p hp
  cases p with
  | env => exact absurd hL hp
  | _ => exact h _ hp

/-- No instruction's own check raises the fetch fault (R161). -/
theorem not_failsWith_fetchOutOfRange (i : Instr) (s : State) : ¬ FailsWith i s .fetchOutOfRange := by
  cases i <;> simp [FailsWith]

/-- A step of a running block that latches FetchOutOfRange could not fetch: a report leaves the latch clear, and so does
an effect; an instruction's fault has another cause. -/
theorem no_fetch_of_fetchOutOfRange {s t : State} {r : FaultRecord} (hf : s.fault = none) (h : step s = .next t)
    (hr : t.fault = some r) (hc : r.cause = .fetchOutOfRange) : fetch s = none := by
  obtain ⟨hhalt, -⟩ | ⟨-, hw, -⟩ | ⟨w, -, -, -, hs⟩ | ⟨w, i, -, -, -, hs⟩ := step_cases s
  · exact absurd hf hhalt
  · exact hw
  · obtain rfl := Host.Outcome.next.inj (hs.symm.trans h)
    cases hf.symm.trans hr
  · obtain ⟨u, hu, rfl⟩ := (endStepOf_eq_next _ _).1 (hs.symm.trans h)
    obtain ⟨c, hfails, rfl⟩ | he := exec_cases i s.advance u hu
    · obtain rfl := Option.some.inj hr
      obtain rfl : c = .fetchOutOfRange := hc
      exact absurd hfails (not_failsWith_fetchOutOfRange i _)
    · cases hf.symm.trans ((effect_stores he).fault.symm.trans hr)

/-- Settles O10: the fetch answers nothing exactly above 0xFFE (`fetch_eq_none`), and then the latch alone is set. -/
theorem fetchPastTheEndFaults : Obligations.FetchPastTheEndFaults := by
  refine ⟨fun s hf hpc => ?_, fun s t r hf h hr hc => ?_, fun s hf hpc => ?_⟩
  · exact ⟨_, step_of_no_fetch hf ((fetch_eq_none s).2 hpc), rfl, rfl,
      ((SameBut.refl _ s).latchFault (by decide)).endStep (by decide)⟩
  · exact (fetch_eq_none s).1 (no_fetch_of_fetchOutOfRange hf h hr hc)
  · exact ⟨_, _, step_of_no_fetch hf ((fetch_eq_none s).2 (by rw [hpc]; decide)), rfl, rfl⟩

end Sys2Proof.Claims
end

section
/-! PROOFS of the statements of spec/30_encoding.md. First words and their fields as numbers, so that packing the fields
of R61 and taking them out again are inverse. Then the decoder against the encoder, class by class. -/

namespace Sys2Proof

/-! Words and fields as numbers (R6, R61) -/

/-- Two bit vectors side by side, as a number. -/
theorem toNat_sideBySide {m n : Nat} (hi : BitVec m) (lo : BitVec n) :
    (hi ++ lo).toNat = hi.toNat * 2 ^ n + lo.toNat := by
  rw [BitVec.toNat_append, ← Nat.shiftLeft_add_eq_or_of_lt lo.isLt, Nat.shiftLeft_eq]

theorem toNat_wordNnn (c : BitVec 4) (nnn : Addr12) : (wordNnn c nnn).toNat = c.toNat * 4096 + nnn.toNat :=
  toNat_sideBySide c nnn

theorem toNat_wordXkk (c : BitVec 4) (x : Reg) (kk : Byte) :
    (wordXkk c x kk).toNat = c.toNat * 4096 + x.toNat * 256 + kk.toNat := by
  rw [wordXkk, toNat_sideBySide, toNat_sideBySide]
  omega

theorem toNat_wordXyn (c : BitVec 4) (x y : Reg) (n : Nibble) :
    (wordXyn c x y n).toNat = c.toNat * 4096 + x.toNat * 256 + y.toNat * 16 + n.toNat := by
  rw [wordXyn, toNat_sideBySide, toNat_sideBySide, toNat_sideBySide]
  omega

theorem toNat_fieldC (w : Word) : (fieldC w).toNat = w.toNat / 4096 := by
  rw [fieldC, BitVec.extractLsb'_toNat, Nat.shiftRight_eq_div_pow]
  omega

theorem toNat_fieldX (w : Word) : (fieldX w).toNat = w.toNat / 256 % 16 := by
  rw [fieldX, BitVec.extractLsb'_toNat, Nat.shiftRight_eq_div_pow]

theorem toNat_fieldY (w : Word) : (fieldY w).toNat = w.toNat / 16 % 16 := by
  rw [fieldY, BitVec.extractLsb'_toNat, Nat.shiftRight_eq_div_pow]

theorem toNat_fieldN (w : Word) : (fieldN w).toNat = w.toNat % 16 := by
  rw [fieldN, BitVec.extractLsb'_toNat, Nat.shiftRight_zero]

theorem toNat_fieldKk (w : Word) : (fieldKk w).toNat = w.toNat % 256 := by
  rw [fieldKk, BitVec.extractLsb'_toNat, Nat.shiftRight_zero]

theorem toNat_fieldNnn (w : Word) : (fieldNnn w).toNat = w.toNat % 4096 := by
  rw [fieldNnn, BitVec.extractLsb'_toNat, Nat.shiftRight_zero]

/-! The fields of a packed word are what was packed -/

section Fields

variable (c : BitVec 4) (x y : Reg) (n : Nibble) (kk : Byte) (nnn : Addr12) (w : Word)

@[simp] theorem fields_wordNnn : fieldC (wordNnn c nnn) = c ∧ fieldNnn (wordNnn c nnn) = nnn := by
  refine ⟨?_, ?_⟩ <;> apply BitVec.eq_of_toNat_eq
  · rw [toNat_fieldC, toNat_wordNnn]; omega
  · rw [toNat_fieldNnn, toNat_wordNnn]; omega

@[simp] theorem fields_wordXkk :
    fieldC (wordXkk c x kk) = c ∧ fieldX (wordXkk c x kk) = x ∧ fieldKk (wordXkk c x kk) = kk := by
  refine ⟨?_, ?_, ?_⟩ <;> apply BitVec.eq_of_toNat_eq
  · rw [toNat_fieldC, toNat_wordXkk]; omega
  · rw [toNat_fieldX, toNat_wordXkk]; omega
  · rw [toNat_fieldKk, toNat_wordXkk]; omega

@[simp] theorem fields_wordXyn :
    fieldC (wordXyn c x y n) = c ∧ fieldX (wordXyn c x y n) = x ∧ fieldY (wordXyn c x y n) = y ∧
      fieldN (wordXyn c x y n) = n := by
  refine ⟨?_, ?_, ?_, ?_⟩ <;> apply BitVec.eq_of_toNat_eq
  · rw [toNat_fieldC, toNat_wordXyn]; omega
  · rw [toNat_fieldX, toNat_wordXyn]; omega
  · rw [toNat_fieldY, toNat_wordXyn]; omega
  · rw [toNat_fieldN, toNat_wordXyn]; omega

/-! A word is its fields packed, in each of the three ways -/

theorem wordNnn_fields : wordNnn (fieldC w) (fieldNnn w) = w := by
  apply BitVec.eq_of_toNat_eq
  rw [toNat_wordNnn, toNat_fieldC, toNat_fieldNnn]
  omega

theorem wordXkk_fields : wordXkk (fieldC w) (fieldX w) (fieldKk w) = w := by
  apply BitVec.eq_of_toNat_eq
  rw [toNat_wordXkk, toNat_fieldC, toNat_fieldX, toNat_fieldKk]
  omega

theorem wordXyn_fields : wordXyn (fieldC w) (fieldX w) (fieldY w) (fieldN w) = w := by
  apply BitVec.eq_of_toNat_eq
  rw [toNat_wordXyn, toNat_fieldC, toNat_fieldX, toNat_fieldY, toNat_fieldN]
  omega

end Fields

/-! Decoding what was encoded -/

/-- The decoder inverts the encoder on words: a format without a sub-opcode is told by its class, XY in the classes 5, 8
and 9 by the low nibble too, X in the classes E and F by the low byte too (R63). -/
theorem decodeWord_encode (i : Instr) : decodeWord (encode i) = .ok i := by
  cases i
  case cls | ret => rfl
  case jp | call | ldI | jpV0 => simp [encode, decodeWord]
  case seKk | sneKk | ldKk | addKk | rnd => simp [encode, decodeWord]
  case drw => simp [encode, decodeWord]
  case seVy => simp [encode, decodeWord, decode5]
  case ldVy | orVy | andVy | xorVy | addVy | sub | shr | subn | shl => simp [encode, decodeWord, decode8]
  case sneVy => simp [encode, decodeWord, decode9]
  case skp | sknp => simp [encode, decodeWord, decodeE]
  case ldVxDt | ldVxK | ldDtVx | ldStVx | addI | ldF | ldB | stRegs | ldRegs =>
    simp [encode, decodeWord, decodeF]

/-- Settles O2: the bytes of a word decode as the word (`decode_bytesOfWord`), and that is the encoded instruction. -/
theorem encodedInstructionDecodesToItself : Obligations.EncodedInstructionDecodesToItself := by
  intro i rest
  rw [encodeBytes, decode_bytesOfWord, decodeWord_encode]

/-! Encoding what was decoded: in a class with sub-opcodes, each branch writes the sub-opcode it tested -/

section Classes

variable {w : Word} {i : Instr}

theorem encode_of_decode0 (h : decode0 w = .ok i) : encode i = w := by
  unfold decode0 at h
  split_ifs at h with hw hw <;> cases h <;> exact hw.symm

theorem encode_of_decode5 (h : decode5 w = .ok i) :
    encode i = wordXyn 0x5 (fieldX w) (fieldY w) (fieldN w) := by
  unfold decode5 at h
  split_ifs at h with hn
  cases h
  rw [encode, hn]

theorem encode_of_decode8 (h : decode8 w = .ok i) :
    encode i = wordXyn 0x8 (fieldX w) (fieldY w) (fieldN w) := by
  unfold decode8 at h
  split_ifs at h with hn hn hn hn hn hn hn hn hn <;> cases h <;> rw [encode, hn]

theorem encode_of_decode9 (h : decode9 w = .ok i) :
    encode i = wordXyn 0x9 (fieldX w) (fieldY w) (fieldN w) := by
  unfold decode9 at h
  split_ifs at h with hn
  cases h
  rw [encode, hn]

theorem encode_of_decodeE (h : decodeE w = .ok i) : encode i = wordXkk 0xE (fieldX w) (fieldKk w) := by
  unfold decodeE at h
  split_ifs at h with hk hk <;> cases h <;> rw [encode, hk]

theorem encode_of_decodeF (h : decodeF w = .ok i) : encode i = wordXkk 0xF (fieldX w) (fieldKk w) := by
  unfold decodeF at h
  split_ifs at h with hk hk hk hk hk hk hk hk hk <;> cases h <;> rw [encode, hk]

end Classes

/-- Settles O3, class by class (`decodeWord_by_class`): the fields taken from the word, packed as the class packs them,
are the word again. -/
theorem decodedWordEncodesBack : Obligations.DecodedWordEncodesBack := by
  intro w i h
  have hNnn := wordNnn_fields w
  have hXkk := wordXkk_fields w
  have hXyn := wordXyn_fields w
  obtain ⟨c, d⟩ | ⟨c, d⟩ | ⟨c, d⟩ | ⟨c, d⟩ | ⟨c, d⟩ | ⟨c, d⟩ | ⟨c, d⟩ | ⟨c, d⟩ | ⟨c, d⟩ | ⟨c, d⟩ | ⟨c, d⟩ |
    ⟨c, d⟩ | ⟨c, d⟩ | ⟨c, d⟩ | ⟨c, d⟩ | ⟨c, d⟩ := decodeWord_by_class w <;>
    rw [d] at h <;> rw [c] at hNnn hXkk hXyn
  · exact encode_of_decode0 h
  · cases h; exact hNnn
  · cases h; exact hNnn
  · cases h; exact hXkk
  · cases h; exact hXkk
  · exact (encode_of_decode5 h).trans hXyn
  · cases h; exact hXkk
  · cases h; exact hXkk
  · exact (encode_of_decode8 h).trans hXyn
  · exact (encode_of_decode9 h).trans hXyn
  · cases h; exact hNnn
  · cases h; exact hNnn
  · cases h; exact hXkk
  · cases h; exact hXyn
  · exact (encode_of_decodeE h).trans hXkk
  · exact (encode_of_decodeF h).trans hXkk

/-! The rows of the opcode map (R64) -/

/-- Every instruction's operands fit beside its fixed bits, and its word is its row with the operands in their places:
the per-instruction laws in one. -/
theorem operandsFit (i : Instr) : Laws.OperandsFit.Statement i := by
  cases i
  case cls | ret => constructor <;> decide
  case jp nnn | call nnn | ldI nnn | jpV0 nnn => exact ⟨Laws.addr_fits nnn, Laws.wordNnn_eq _ nnn⟩
  case seKk x kk | sneKk x kk | ldKk x kk | addKk x kk | rnd x kk =>
    exact ⟨Laws.regByte_fits x kk, (Laws.wordXkk_eq _ x kk).trans (BitVec.or_assoc _ _ _)⟩
  case drw x y n => exact Laws.OperandsFit.drw x y n
  case skp x | sknp x | ldVxDt x | ldVxK x | ldDtVx x | ldStVx x | addI x | ldF x | ldB x | stRegs x | ldRegs x =>
    exact ⟨Laws.reg_fits x, Laws.x_word _ _ x⟩
  all_goals exact ⟨Laws.regReg_fits _ _, Laws.xy_word _ _ _ _⟩

theorem pattern_and_mask (i : Instr) : i.pattern &&& i.mask = i.pattern := by
  cases i <;> simp only [Instr.pattern, Instr.mask, Instr.format] <;> rfl

/-- The fixed bits of an instruction's word are its row's match value. -/
theorem encode_and_mask (i : Instr) : encode i &&& i.mask = i.pattern := by
  obtain ⟨hfit, hword⟩ := operandsFit i
  have hoperands : i.operandBits &&& i.mask = 0 := beq_iff_eq.1 hfit
  rw [hword, BitVec.and_or_distrib_right, pattern_and_mask, hoperands]
  exact BitVec.or_zero

/-- The mask of every row of a class (R63, R64). -/
def classMask (c : BitVec 4) : Word :=
  if c = 0x0 then Format.op.mask
  else if c = 0x5 ∨ c = 0x8 ∨ c = 0x9 then Format.xy.mask
  else if c = 0xE ∨ c = 0xF then Format.x.mask
  else Format.nnn.mask

theorem mask_eq_classMask (i : Instr) : i.mask = classMask (fieldC i.pattern) := by
  cases i <;> simp only [Instr.pattern, Instr.mask, Instr.format] <;> rfl

/-- Every format fixes the class nibble. -/
theorem fieldC_and_mask (w : Word) (f : Format) : fieldC (w &&& f.mask) = fieldC w := by
  have hall : fieldC f.mask = BitVec.allOnes 4 := by cases f <;> rfl
  calc fieldC (w &&& f.mask) = fieldC w &&& fieldC f.mask := BitVec.extractLsb'_and
    _ = fieldC w := by rw [hall, BitVec.and_allOnes]

/-- Format XY fixes the low nibble. -/
theorem fieldN_and_mask_xy (w : Word) : fieldN (w &&& Format.xy.mask) = fieldN w :=
  BitVec.extractLsb'_and.trans BitVec.and_allOnes

/-- Format X fixes the low byte. -/
theorem fieldKk_and_mask_x (w : Word) : fieldKk (w &&& Format.x.mask) = fieldKk w :=
  BitVec.extractLsb'_and.trans BitVec.and_allOnes

/-- A word with the fixed bits of a row decodes to an instruction of the row: the class is the row's, and so is the
sub-opcode the class is dispatched on. -/
theorem decodeWord_of_masked {w : Word} {i : Instr} (h : w &&& i.mask = i.pattern) :
    ∃ j, decodeWord w = .ok j ∧ j.pattern = i.pattern := by
  have hc : fieldC w = fieldC i.pattern := by rw [← h, Instr.mask, fieldC_and_mask]
  cases i
  case cls | ret =>
    obtain rfl : w = _ := BitVec.and_allOnes.symm.trans h
    exact ⟨_, rfl, rfl⟩
  case jp | call | ldI | jpV0 | seKk | sneKk | ldKk | addKk | rnd | drw =>
    simp +decide [decodeWord, hc, Instr.pattern]
  case skp | sknp | ldVxDt | ldVxK | ldDtVx | ldStVx | addI | ldF | ldB | stRegs | ldRegs =>
    have hk : fieldKk w = _ := (fieldKk_and_mask_x w).symm.trans (congrArg fieldKk h)
    simp +decide [decodeWord, decodeE, decodeF, hc, hk, Instr.pattern]
  case seVy | ldVy | orVy | andVy | xorVy | addVy | sub | shr | subn | shl | sneVy =>
    have hn : fieldN w = _ := (fieldN_and_mask_xy w).symm.trans (congrArg fieldN h)
    simp +decide [decodeWord, decode5, decode8, decode9, hc, hn, Instr.pattern]

/-- Settles O4. The rows are evaluated. One way is `decodeWord_of_masked`; the other way the word is an encoding
(`decodedWordEncodesBack`), so it has its row's fixed bits, and rows with one match value have one mask. -/
theorem tableRowMatchesExactly : Obligations.TableRowMatchesExactly := by
  refine ⟨rfl, fun w i => ⟨decodeWord_of_masked, ?_⟩⟩
  rintro ⟨j, hd, hp⟩
  obtain rfl := decodedWordEncodesBack w j hd
  calc encode j &&& i.mask = encode j &&& j.mask := by rw [mask_eq_classMask i, mask_eq_classMask j, hp]
    _ = i.pattern := by rw [encode_and_mask, hp]

/-! The unrecognized words (R65) -/

/-- A chain of tests is refused when no test holds. -/
theorem ite_ok_eq_error {p : Prop} [Decidable p] {i : Instr} {r : Except DecodeError Instr} {e : DecodeError} :
    (if p then .ok i else r) = .error e ↔ ¬ p ∧ r = .error e := by
  split_ifs with h <;> simp [h]

section Refused

variable (w : Word)

theorem decode0_eq_error : decode0 w = .error (.unrecognized w) ↔ w ≠ 0x00E0 ∧ w ≠ 0x00EE := by
  simp [decode0, ite_ok_eq_error]

theorem decode5_eq_error : decode5 w = .error (.unrecognized w) ↔ w.toNat % 16 ≠ 0 := by
  simp [decode5, ← toNat_fieldN, ← BitVec.toNat_inj]

theorem decode8_eq_error :
    decode8 w = .error (.unrecognized w) ↔ w.toNat % 16 ∈ [8, 9, 10, 11, 12, 13, 15] := by
  rw [← toNat_fieldN]
  rcases nibble_cases (fieldN w) with h | h | h | h | h | h | h | h | h | h | h | h | h | h | h | h <;>
    simp [decode8, h]

theorem decode9_eq_error : decode9 w = .error (.unrecognized w) ↔ w.toNat % 16 ≠ 0 := by
  simp [decode9, ← toNat_fieldN, ← BitVec.toNat_inj]

theorem decodeE_eq_error : decodeE w = .error (.unrecognized w) ↔ w.toNat % 256 ∉ [0x9E, 0xA1] := by
  simp [decodeE, ite_ok_eq_error, ← toNat_fieldKk, ← BitVec.toNat_inj]

theorem decodeF_eq_error : decodeF w = .error (.unrecognized w) ↔
    w.toNat % 256 ∉ [0x07, 0x0A, 0x15, 0x18, 0x1E, 0x29, 0x33, 0x55, 0x65] := by
  simp [decodeF, ite_ok_eq_error, ← toNat_fieldKk, ← BitVec.toNat_inj]

end Refused

/-- Settles O5, class by class (`decodeWord_by_class`): six classes refuse the sub-opcodes they do not name, the other
ten refuse nothing. -/
theorem unrecognizedWordsExactly : Obligations.UnrecognizedWordsExactly := by
  intro w
  rw [← toNat_fieldC]
  obtain ⟨c, d⟩ | ⟨c, d⟩ | ⟨c, d⟩ | ⟨c, d⟩ | ⟨c, d⟩ | ⟨c, d⟩ | ⟨c, d⟩ | ⟨c, d⟩ | ⟨c, d⟩ | ⟨c, d⟩ | ⟨c, d⟩ |
    ⟨c, d⟩ | ⟨c, d⟩ | ⟨c, d⟩ | ⟨c, d⟩ | ⟨c, d⟩ := decodeWord_by_class w <;>
    simp [d, c, decode0_eq_error, decode5_eq_error, decode8_eq_error, decode9_eq_error, decodeE_eq_error,
      decodeF_eq_error]

/-- Settles O1: eleven closed words and byte lists, decoded. -/
theorem sampleWordsDecode : Obligations.SampleWordsDecode := by
  unfold Obligations.SampleWordsDecode
  decide

end Sys2Proof

namespace Sys2Proof.Machine

/-! The y of the shifts (R67) -/

/-- Writes to two registers can be swapped. -/
theorem State.setReg_comm {x y : Reg} (h : x ≠ y) (a b : Byte) (s : State) :
    (s.setReg x a).setReg y b = (s.setReg y b).setReg x a := by
  have hxy : x.toNat ≠ y.toNat := fun e => h (BitVec.toNat_inj.1 e)
  simp only [State.setReg, Vector.set_comm a b hxy]

section Shift

variable {x y : Reg} (hx : y ≠ x) (hf : y ≠ Config.flagReg) (s : State) (m : ShiftAlias) (flag : Byte → Bool)
  (op : Byte → Byte)

include hx hf

/-- A shift leaves a register that is neither its own nor VF. -/
theorem State.reg_setFlagThenResult_of_ne : (s.setFlagThenResult m x flag op).reg y = s.reg y := by
  rw [State.reg_setFlagThenResult, if_neg hx.symm, if_neg hf.symm]

/-- A shift does not read such a register: what it holds goes past the shift. -/
theorem State.setFlagThenResult_setReg (b : Byte) :
    (s.setReg y b).setFlagThenResult m x flag op = (s.setFlagThenResult m x flag op).setReg y b := by
  have hreg : (s.setReg y b).reg x = s.reg x := by rw [State.reg_setReg, if_neg hx]
  have hflag (f : Bool) : (s.setReg y b).setFlag f = (s.setFlag f).setReg y b := State.setReg_comm hf b _ s
  cases m <;>
    simp only [State.setFlagThenResult, hreg, hflag, State.setReg_comm hx, State.reg_setReg, if_neg hx]

end Shift

/-- Settles O6. The meanings do not take y, so two shifts that differ in it alone are one; and a register beside Vx and
VF is neither written (`State.reg_setFlagThenResult_of_ne`) nor read (`State.setFlagThenResult_setReg`). -/
theorem shiftsIgnoreTheirYField : Obligations.ShiftsIgnoreTheirYField := by
  intro x y y' s
  refine ⟨rfl, rfl, fun hx hf b => ⟨_, _, _, _, rfl, rfl, ?_, ?_, rfl, rfl, ?_, ?_⟩⟩
  · exact s.setFlagThenResult_setReg hx hf _ _ _ b
  · exact s.reg_setFlagThenResult_of_ne hx hf _ _ _
  · exact s.setFlagThenResult_setReg hx hf _ _ _ b
  · exact s.reg_setFlagThenResult_of_ne hx hf _ _ _

end Sys2Proof.Machine
end

section
/-! PROOFS of the statements of spec/40_step_cycle.md. First what a step of a running block can do, said once in named
updates; then `PC`, the invariant and the inputs, each for one effect and from it for the step. -/

namespace Sys2Proof.Machine

/-- Undoing the advance gives the state before the fetch (R82, R86). -/
@[simp] theorem State.rewind_advance (s : State) : s.advance.rewind = s := by
  simp [State.advance, State.rewind]

end Sys2Proof.Machine

namespace Sys2Proof.Claims

open Sys2Proof.Machine

/-! A step that is not halted, and the halted block -/

/-- Settles O12: each of the four things a step can do answers. -/
theorem everyStepAnswersANextState : Obligations.EveryStepAnswersANextState := by
  intro s
  obtain ⟨-, hs⟩ | ⟨hf, hw, -⟩ | ⟨w, -, -, -, hs⟩ | ⟨w, i, hf, hw, hd, -⟩ := step_cases s
  · exact ⟨_, hs⟩
  · exact ⟨_, step_of_no_fetch hf hw⟩
  · exact ⟨_, hs⟩
  · obtain ⟨t, ht, -⟩ := exec_answers i s.advance
    exact ⟨_, step_of_exec hf hw hd ht⟩

/-- Two bytes decode to an instruction when their word does. -/
theorem decodeWord_of_decode_pair {hi lo : Byte} {i : Instr} (h : decode [hi, lo] = .ok (i, [])) :
    decodeWord (wordOfBytes hi lo) = .ok i := by
  rw [decode] at h
  cases hd : decodeWord (wordOfBytes hi lo) <;> rw [hd] at h <;> cases h
  rfl

/-- Settles O7: the two bytes decode as the fetched word does, and the instruction answers a next state, around which
the host's side moves on. -/
theorem stepRunsTheDecodedInstruction : Obligations.StepRunsTheDecodedInstruction := by
  intro s i hcan _ hdec
  obtain ⟨hf, hpc⟩ := hcan
  obtain ⟨t, ht, -⟩ := exec_answers i s.advance
  have ht' : exec i { s with pc := s.pc + 2 } = .next t := ht
  rw [step_of_exec hf ((fetch_eq_some s _).2 ⟨hpc, rfl⟩) (decodeWord_of_decode_pair hdec) ht, ht']
  rfl

/-- A state whose step answers it again stays for any number of steps. -/
theorem run_of_step_self {M : Host.Core} {s : M.State} (h : M.step s = .next s) (n : Nat) : M.run n s = .next s := by
  induction n with
  | zero => rfl
  | succ n ih =>
    rw [Host.Core.run, h]
    exact ih

/-- Settles O9: the step of a halted block is the identity, and so is any number of them. -/
theorem haltedBlockNeverChanges : Obligations.HaltedBlockNeverChanges := by
  intro s n hf
  obtain ⟨r, hr⟩ := Option.ne_none_iff_exists'.1 hf
  exact ⟨step_of_halted hr, run_of_step_self (M := Sys2Proof.core) (step_of_halted hr) n⟩

/-- The step of a running block raises this cause: it cannot fetch, or the check of the instruction at `PC` fails. -/
def StepFails (s : State) (c : Cause) : Prop :=
  (fetch s = none ∧ c = .fetchOutOfRange) ∨
    ∃ w i, fetch s = some w ∧ decodeWord w = .ok i ∧ FailsWith i s.advance c

/-- The fetch fault is the fault of a step that cannot fetch, and of no other (R161). -/
theorem StepFails.fetch_eq_none_iff {s : State} {c : Cause} (h : StepFails s c) :
    fetch s = none ↔ c = .fetchOutOfRange := by
  obtain ⟨hw, rfl⟩ | ⟨w, i, hw, -, hfails⟩ := h
  · exact iff_of_true hw rfl
  · refine iff_of_false (hw ▸ Option.some_ne_none w) ?_
    rintro rfl
    exact not_failsWith_fetchOutOfRange i _ hfails

/-- A step of a running block latches a fault with `PC` and the fetched word, or reports the word, or has the effect of
its instruction on the advanced state (R80, R86, R156). The word an instruction's fault records is the fetched one,
because a recognized word is the encoding of its instruction (`decodedWordEncodesBack`). -/
theorem running_step_cases {s t : State} (hf : s.fault = none) (h : step s = .next t) :
    (∃ c, StepFails s c ∧ t = (s.latchFault ⟨c, s.pc, fetch s⟩).endStep) ∨
    (∃ w, fetch s = some w ∧ decodeWord w = .error (.unrecognized w) ∧ t = (s.advance.diagnose s.pc w).endStep) ∨
    (∃ w i u, fetch s = some w ∧ decodeWord w = .ok i ∧ Effect i s.advance u ∧ t = u.endStep) := by
  obtain ⟨hhalt, -⟩ | ⟨-, hw, -⟩ | ⟨w, -, hw, hd, hs⟩ | ⟨w, i, -, hw, hd, hs⟩ := step_cases s
  · exact absurd hf hhalt
  · obtain rfl := Host.Outcome.next.inj (h.symm.trans (step_of_no_fetch hf hw))
    exact .inl ⟨_, .inl ⟨hw, rfl⟩, by rw [hw]⟩
  · exact .inr (.inl ⟨w, hw, hd, Host.Outcome.next.inj (h.symm.trans hs)⟩)
  · obtain ⟨u, hu, rfl⟩ := (endStepOf_eq_next _ _).1 (hs.symm.trans h)
    obtain ⟨c, hfails, rfl⟩ | he := exec_cases i s.advance u hu
    · refine .inl ⟨c, .inr ⟨w, i, hw, hd, hfails⟩, ?_⟩
      rw [State.rewind_advance, State.pc_advance, BitVec.add_sub_cancel, decodedWordEncodesBack w i hd, hw]
    · exact .inr (.inr ⟨w, i, u, hw, hd, he, rfl⟩)

/-- A step of a running block that ends halted has changed the latch, and the host's side has moved on. -/
theorem faulting_step_eq {s t : State} (hf : s.fault = none) (h : step s = .next t) (hfault : t.fault ≠ none) :
    ∃ c, StepFails s c ∧ t = (s.latchFault ⟨c, s.pc, fetch s⟩).endStep := by
  obtain hfail | ⟨w, -, -, rfl⟩ | ⟨w, i, u, -, -, he, rfl⟩ := running_step_cases hf h
  · exact hfail
  · exact absurd hf hfault
  · exact absurd ((effect_stores he).fault.trans hf) hfault

/-- Settles O14: the step has latched its fault and done nothing else (`faulting_step_eq`), and the block it leaves is
halted (`haltedBlockNeverChanges`). -/
theorem faultsArePreciseAndFinal : Obligations.FaultsArePreciseAndFinal := by
  intro s t hf h hfault
  have hfinal n := (haltedBlockNeverChanges t n hfault).2
  obtain ⟨c, hfails, rfl⟩ := faulting_step_eq hf h hfault
  exact ⟨rfl, ((SameBut.refl _ s).latchFault (by decide)).endStep (by decide),
    ⟨c, rfl, hfails.fetch_eq_none_iff⟩, hfinal⟩

/-! `PC` after a step (R83) -/

/-- The 12-bit target, as the table writes it. -/
theorem extAddr_eq (a : Addr12) : extAddr a = BitVec.ofNat 16 a.toNat := (BitVec.ofNat_toNat 16 a).symm

/-- The sum of Bnnn, as the table writes it. -/
theorem jumpOffset_eq (a : Addr12) (b : Byte) : jumpOffset a b = BitVec.ofNat 16 (a.toNat + b.toNat) := by
  rw [← toNat_jumpOffset, BitVec.ofNat_toNat, BitVec.setWidth_eq]

/-- An instruction whose check fails leaves `PC` on itself. -/
theorem finalPc_of_fails {i : Instr} {s : State} {c : Cause} (h : FailsWith i s.advance c) : finalPc i s = s.pc := by
  cases i
  case ret =>
    obtain ⟨-, hsp⟩ := h
    exact dif_neg (Nat.not_lt.2 (Nat.le_of_eq hsp))
  case call | addI | ldB | stRegs | ldRegs | drw =>
    obtain ⟨-, hfail⟩ := h
    exact if_pos hfail
  all_goals exact h.elim

/-- The effect of an instruction leaves `PC` where the table of R83 says. -/
theorem effect_pc {i : Instr} {s t : State} (he : Effect i s.advance t) : t.pc = finalPc i s := by
  cases i
  case ret =>
    obtain ⟨h0, rfl⟩ := he
    have h0 : 0 < s.sp.val := h0
    rw [finalPc, dif_pos h0]
    rfl
  case call =>
    obtain ⟨hlt, rfl⟩ := he
    have hlt : s.sp.val < 16 := hlt
    rw [finalPc, if_neg (Nat.ne_of_lt hlt)]
    exact extAddr_eq _
  case jp => obtain rfl := he; exact extAddr_eq _
  case jpV0 => obtain rfl := he; exact jumpOffset_eq _ _
  case seKk | sneKk | seVy | sneVy =>
    obtain rfl := he
    simp only [State.pc_advance_skipIf, beq_iff_eq, bne_iff_ne, State.reg_advance, finalPc]
  case skp => obtain rfl := he; simp only [State.pc_advance_skipIf, keyIs_iff, finalPc]; rfl
  case sknp =>
    obtain rfl := he
    simp only [State.pc_advance_skipIf, Bool.not_eq_true', ← Bool.not_eq_true, keyIs_iff, ite_not, finalPc]
    rfl
  case ldVxK =>
    obtain ⟨hk, rfl⟩ | ⟨k, hk, rfl⟩ := he
    · have hk : s.key = none := hk
      rw [finalPc, if_pos hk, State.rewind_advance, State.pc_setMode]
    · have hk : s.key = some k := hk
      rw [finalPc, hk, if_neg (Option.some_ne_none k)]
      rfl
  case addI =>
    obtain ⟨a, hle, -, rfl⟩ := he
    exact (if_neg (Nat.not_lt.2 hle)).symm
  case ldB | stRegs | drw =>
    obtain ⟨hfits, rfl⟩ := he
    rw [State.i_advance] at hfits
    exact (if_neg (by omega)).symm
  case ldRegs =>
    obtain ⟨hfits, rfl⟩ := he
    rw [State.i_advance] at hfits
    exact (State.pc_setRegsFrom _ _ _).trans (if_neg (by omega)).symm
  all_goals obtain rfl := he; rfl

/-- Settles O13: an instruction's fault leaves `PC` on it (`finalPc_of_fails`), and its effect moves it by the table
(`effect_pc`). -/
theorem finalPcByInstruction : Obligations.FinalPcByInstruction := by
  refine ⟨fun s w i hf hw hd => ?_, fun s w e hf hw hd => ?_, fun s t hf h hfault => ?_⟩
  · obtain ⟨t, ht, hcases⟩ := exec_answers i s.advance
    refine ⟨t.endStep, step_of_exec hf hw hd ht, ?_⟩
    rw [State.pc_endStep]
    obtain ⟨c, hfails, rfl⟩ | he := hcases
    · rw [finalPc_of_fails hfails, State.rewind_advance]
      rfl
    · exact effect_pc he
  · exact ⟨_, step_of_unrecognized hf hw hd, rfl⟩
  · obtain ⟨c, -, rfl⟩ := faulting_step_eq hf h hfault
    rfl

/-! The inputs reach only their readers (R87) -/

section OtherEnv

variable {i : Instr} {s t t' : State} {e : Env}

/-- Loading registers takes nothing of the host's side. -/
theorem setRegsFrom_withEnv (s : State) (e : Env) (k : Nat) (bs : List Byte) :
    ({ s with env := e } : State).setRegsFrom k bs = { s.setRegsFrom k bs with env := e } := by
  induction bs generalizing s k with
  | nil => rfl
  | cons b bs ih => exact ih (s.setReg (BitVec.ofNat 4 k) b) (k + 1)

/-- A skip takes nothing of the host's side. -/
theorem skipIf_withEnv (s : State) (e : Env) (c : Bool) :
    ({ s with env := e } : State).skipIf c = { s.skipIf c with env := e } := by
  cases c <;> rfl

/-- No check reads the host's side. -/
theorem failsWith_withEnv {c : Cause} : FailsWith i { s with env := e } c ↔ FailsWith i s c := by
  cases i <;> exact Iff.rfl

/-- With another host's side that agrees on the inputs read, the effect is the same. -/
theorem effect_withEnv (hnow : readsNow i → ({ s with env := e } : State).now = s.now)
    (hkey : readsKey i → ({ s with env := e } : State).key = s.key)
    (hrand : readsRand i → ({ s with env := e } : State).rand = s.rand)
    (he : Effect i s t) (he' : Effect i { s with env := e } t') : t' = { t with env := e } := by
  cases i
  case ret | call => obtain ⟨_, rfl⟩ := he; obtain ⟨_, rfl⟩ := he'; rfl
  case drw | ldB | stRegs => obtain ⟨-, rfl⟩ := he; obtain ⟨-, rfl⟩ := he'; rfl
  case ldRegs => obtain ⟨-, rfl⟩ := he; obtain ⟨-, rfl⟩ := he'; exact setRegsFrom_withEnv s e _ _
  case addI =>
    obtain ⟨a, -, ha, rfl⟩ := he
    obtain ⟨a', -, ha', rfl⟩ := he'
    obtain rfl : a' = a := BitVec.eq_of_toNat_eq (ha'.trans ha.symm)
    rfl
  case seKk | sneKk | seVy | sneVy => obtain rfl := he; obtain rfl := he'; exact skipIf_withEnv s e _
  case skp x =>
    obtain rfl := he
    obtain rfl := he'
    rw [hkey ⟨x, .inl rfl⟩]
    exact skipIf_withEnv s e _
  case sknp x =>
    obtain rfl := he
    obtain rfl := he'
    rw [hkey ⟨x, .inr (.inl rfl)⟩]
    exact skipIf_withEnv s e _
  case ldVxK x =>
    have hkey := hkey ⟨x, .inr (.inr rfl)⟩
    obtain ⟨hk, rfl⟩ | ⟨k, hk, rfl⟩ := he
    · obtain ⟨-, rfl⟩ | ⟨k', hk', -⟩ := he'
      · rfl
      · exact absurd (hk'.symm.trans (hkey.trans hk)) (Option.some_ne_none k')
    · obtain ⟨hk', -⟩ | ⟨k', hk', rfl⟩ := he'
      · exact absurd (hk.symm.trans (hkey.symm.trans hk')) (Option.some_ne_none k)
      · obtain rfl : k' = k := Option.some.inj (hk'.symm.trans (hkey.trans hk))
        rfl
  case ldVxDt x => obtain rfl := he; obtain rfl := he'; rw [hnow ⟨x, .inl rfl⟩]; rfl
  case ldDtVx x => obtain rfl := he; obtain rfl := he'; rw [hnow ⟨x, .inr (.inl rfl)⟩]; rfl
  case ldStVx x => obtain rfl := he; obtain rfl := he'; rw [hnow ⟨x, .inr (.inr rfl)⟩]; rfl
  case rnd x kk => obtain rfl := he; obtain rfl := he'; rw [hrand ⟨x, kk, rfl⟩]; rfl
  all_goals obtain rfl := he; obtain rfl := he'; rfl

end OtherEnv

/-- Settles O16: the check fails in both states, and the fault taken is the same, or in neither, and then the effect is
the same (`effect_withEnv`). -/
theorem inputsReachOnlyTheirReaders : Obligations.InputsReachOnlyTheirReaders := by
  intro i s e hnow hkey hrand
  by_cases hf : ∃ c, FailsWith i s c
  · obtain ⟨c, hc⟩ := hf
    rw [exec_of_fails i s c hc, exec_of_fails i _ c (failsWith_withEnv.2 hc)]
    rfl
  · obtain ⟨t, ht, he⟩ := exec_of_not_fails i s fun c hc => hf ⟨c, hc⟩
    obtain ⟨t', ht', he'⟩ := exec_of_not_fails i { s with env := e } fun c hc => hf ⟨c, failsWith_withEnv.1 hc⟩
    rw [ht, ht', effect_withEnv hnow hkey hrand he he']
    rfl

/-! The invariant of the reachable states -/

section Invariant

variable {i : Instr} {s t : State}

/-- From a fetchable `PC` and live entries at most 0x1000, the table of R83 leads no further than 0x10FE (R84). -/
theorem finalPc_le (i : Instr) (hpc : s.pc.toNat ≤ 0xFFE)
    (hstack : ∀ k : Fin 16, k.val < s.sp.val → (s.stack[k]).toNat ≤ 0x1000) : (finalPc i s).toNat ≤ 0x10FE := by
  have hnext : (s.pc + 2).toNat ≤ 0x10FE := by bv_omega
  have hskip : (s.pc + 4).toNat ≤ 0x10FE := by bv_omega
  have hself : s.pc.toNat ≤ 0x10FE := by omega
  have haddr (a : Addr12) : (BitVec.ofNat 16 a.toNat).toNat ≤ 0x10FE := by
    have := a.isLt
    rw [BitVec.toNat_ofNat]
    omega
  cases i <;> simp only [finalPc]
  case jp a => exact haddr a
  case call a => split; exacts [hself, haddr a]
  case ret =>
    split
    · next h0 =>
      have hlive := hstack ⟨s.sp.val - 1, by omega⟩ (Nat.sub_lt h0 Nat.one_pos)
      exact hlive.trans (by decide)
    · exact hself
  case jpV0 a =>
    have := a.isLt
    have := (s.reg 0).isLt
    rw [BitVec.toNat_ofNat]
    omega
  case seKk | sneKk | seVy | sneVy | skp => split; exacts [hskip, hnext]
  case sknp => split; exacts [hnext, hskip]
  case ldVxK | addI | ldB | stRegs | ldRegs | drw => split; exacts [hself, hnext]
  all_goals exact hnext

/-- `I` stays at most 0xFFF: its three writers load 12 bits, at most 0x4FB, or a sum they have checked (R14). -/
theorem effect_index_le (he : Effect i s t) (hi : s.i.toNat ≤ 0xFFF) : t.i.toNat ≤ 0xFFF := by
  have hframe := effect_frame he .index
  cases i <;> simp only [mayChange] at hframe
  case ldI a =>
    obtain rfl := he
    have := a.isLt
    rw [State.i_setI, toNat_extAddr]
    omega
  case ldF x =>
    obtain rfl := he
    have := (s.reg x).isLt
    rw [State.i_setI, toNat_glyphAddr]
    omega
  case addI =>
    obtain ⟨a, hle, ha, rfl⟩ := he
    rw [State.i_setI, ha]
    exact hle
  all_goals
    have hsame : t.i = s.i := hframe (by decide)
    rwa [hsame]

/-- The live entries stay under a bound that holds for `PC` too: 2nnn pushes `PC`, and 00EE leaves fewer live. -/
theorem effect_live_entry_le {b : Nat} (he : Effect i s t) (hpc : s.pc.toNat ≤ b)
    (hstack : ∀ k : Fin 16, k.val < s.sp.val → (s.stack[k]).toNat ≤ b) (k : Fin 16) (hk : k.val < t.sp.val) :
    (t.stack[k]).toNat ≤ b := by
  have hframe := effect_frame he .stack
  cases i <;> simp only [mayChange] at hframe
  case ret =>
    obtain ⟨_, rfl⟩ := he
    exact hstack k (Nat.lt_of_lt_of_le hk (Nat.sub_le _ _))
  case call =>
    obtain ⟨hlt, rfl⟩ := he
    have hk : k.val < s.sp.val + 1 := hk
    simp only [State.stack_jump, State.stack_setSp, State.stack_setEntry, Fin.getElem_fin, Vector.getElem_set]
    split
    · exact hpc
    · exact hstack k (by omega)
  all_goals
    obtain ⟨hsp, hsame⟩ := hframe (by decide)
    rw [hsame k]
    exact hstack k (hsp ▸ hk)

/-- A timer keeps its set-instant, or is set at the step's `now` (R147). -/
theorem effect_instant (he : Effect i s t) :
    (t.dt.instant = s.dt.instant ∨ t.dt.instant = s.now) ∧ (t.st.instant = s.st.instant ∨ t.st.instant = s.now) := by
  have hdelay := effect_frame he .delay
  have hsound := effect_frame he .sound
  cases i <;> simp only [mayChange] at hdelay hsound
  case ldDtVx => obtain rfl := he; exact ⟨.inr rfl, .inl rfl⟩
  case ldStVx => obtain rfl := he; exact ⟨.inl rfl, .inr rfl⟩
  all_goals exact ⟨.inl (congrArg _ (hdelay (by decide))), .inl (congrArg _ (hsound (by decide)))⟩

/-- No effect writes `DIAG` (R24). -/
theorem effect_diag (he : Effect i s t) : t.diag = s.diag := by
  refine effect_frame he .diag ?_
  cases i <;> (simp only [mayChange]; decide)

/-- A block that waits after an effect either waited before it, or has just run an Fx0A without a key (R19, R142). -/
theorem effect_awaiting (he : Effect i s t) (ht : t.mode = .awaitingKey) :
    (∃ x, i = .ldVxK x) ∨ s.mode = .awaitingKey := by
  have hframe := effect_frame he .mode
  cases i <;> simp only [mayChange] at hframe
  case ldVxK x => exact .inl ⟨x, rfl⟩
  all_goals exact .inr ((hframe (by decide)).symm.trans ht)

/-- Fx0A leaves the block waiting only with `PC` back on it and Memory as it was (R142). -/
theorem fetch_of_awaiting {x : Reg} (he : Effect (.ldVxK x) s.advance t) (ht : t.mode = .awaitingKey) :
    fetch t = fetch s := by
  obtain ⟨-, rfl⟩ | ⟨_, -, rfl⟩ := he
  · exact fetch_congr s rfl (by rw [State.rewind_advance]; rfl)
  · cases ht

/-- A block that waits has an Fx0A at `PC`, so its step has nothing to fail: the fetch succeeds, and Fx0A makes no
check. -/
theorem not_awaiting_of_stepFails {c : Cause} (hs : s.Inv) (h : StepFails s c) : s.mode ≠ .awaitingKey := by
  intro hmode
  obtain ⟨-, w, x, hw, hd⟩ := hs.awaiting hmode
  obtain ⟨hnone, -⟩ | ⟨w', i, hw', hd', hfails⟩ := h
  · cases hw.symm.trans hnone
  · obtain rfl := Option.some.inj (hw.symm.trans hw')
    obtain rfl := Except.ok.inj (hd.symm.trans hd')
    exact hfails

/-- The invariant over a fault: the record is that of `PC` and the fetched word (R162). -/
theorem inv_latchFault {c : Cause} (hs : s.Inv) (h : StepFails s c) :
    (s.latchFault ⟨c, s.pc, fetch s⟩).endStep.Inv where
  memory := hs.memory
  pcRange := hs.pcRange
  iRange := hs.iRange
  stackRange := hs.stackRange
  delaySet := hs.delaySet.trans s.clock_le_now
  soundSet := hs.soundSet.trans s.clock_le_now
  faultPrecise r hr := by
    obtain rfl := Option.some.inj hr
    exact ⟨rfl, h.fetch_eq_none_iff, rfl⟩
  diagnostics := hs.diagnostics
  awaiting hmode := (not_awaiting_of_stepFails hs h hmode).elim

/-- The invariant over the report of an unrecognized word (R156). -/
theorem inv_diagnose {w : Word} (hs : s.Inv) (hf : s.fault = none) (hw : fetch s = some w)
    (hd : decodeWord w = .error (.unrecognized w)) : (s.advance.diagnose s.pc w).endStep.Inv where
  memory := hs.memory
  pcRange := by
    obtain ⟨hpc, -⟩ := (fetch_eq_some s w).1 hw
    have : (s.pc + 2).toNat ≤ 0x10FE := by bv_omega
    exact this
  iRange := hs.iRange
  stackRange := hs.stackRange
  delaySet := hs.delaySet.trans s.clock_le_now
  soundSet := hs.soundSet.trans s.clock_le_now
  faultPrecise r hr := by cases hf.symm.trans hr
  diagnostics e he := by
    obtain he | he := List.mem_append.1 he
    · exact hs.diagnostics e he
    · obtain rfl := List.mem_singleton.1 he
      exact ⟨((fetch_eq_some s w).1 hw).1, hd⟩
  awaiting hmode := by
    obtain ⟨-, w', x, hw', hd'⟩ := hs.awaiting hmode
    obtain rfl := Option.some.inj (hw.symm.trans hw')
    cases hd.symm.trans hd'

/-- The invariant over the effect of the instruction at `PC`. -/
theorem inv_effect {w : Word} (hs : s.Inv) (hf : s.fault = none) (hw : fetch s = some w)
    (hd : decodeWord w = .ok i) (he : Effect i s.advance t) : t.endStep.Inv := by
  obtain ⟨hpc, -⟩ := (fetch_eq_some s w).1 hw
  have hnext : (s.pc + 2).toNat ≤ 0x1000 := by bv_omega
  have hfault : t.fault = none := (effect_stores he).fault.trans hf
  have hclock : s.env.clock ≤ t.now := by
    rw [State.now_of_env _ he.env_eq]
    exact s.clock_le_now
  have hnow : s.advance.now = t.now := (State.now_of_env _ he.env_eq).symm
  have hindex := effect_index_le he hs.iRange
  have hlive := effect_live_entry_le he hnext hs.stackRange
  obtain ⟨hdelay, hsound⟩ := effect_instant he
  exact {
    memory := (effect_stores he).wf hs.memory
    pcRange := by
      rw [State.pc_endStep, effect_pc he]
      exact finalPc_le i hpc hs.stackRange
    iRange := hindex
    stackRange := hlive
    delaySet := hdelay.elim (fun e => e.trans_le (hs.delaySet.trans hclock)) fun e => (e.trans hnow).le
    soundSet := hsound.elim (fun e => e.trans_le (hs.soundSet.trans hclock)) fun e => (e.trans hnow).le
    faultPrecise := fun r hr => by cases hfault.symm.trans hr
    diagnostics := by
      rw [State.diag_endStep, effect_diag he]
      exact hs.diagnostics
    awaiting := fun hmode => by
      obtain ⟨x, rfl⟩ : ∃ x, i = .ldVxK x := by
        obtain hx | hwait := effect_awaiting he hmode
        · exact hx
        · obtain ⟨-, w', x, hw', hd'⟩ := hs.awaiting hwait
          obtain rfl := Option.some.inj (hw.symm.trans hw')
          exact ⟨x, Except.ok.inj (hd.symm.trans hd')⟩
      exact ⟨hfault, w, x, (fetch_of_awaiting he hmode).trans hw, hd⟩ }

end Invariant

/-- Settles O26: a halted block stays, and each of the three things the step of a running one can do keeps the
invariant. -/
theorem stepKeepsTheInvariant : Obligations.StepKeepsTheInvariant := by
  intro s t hs h
  cases hf : s.fault with
  | some r =>
    obtain rfl := Host.Outcome.next.inj ((step_of_halted hf).symm.trans h)
    exact hs
  | none =>
    obtain ⟨c, hfails, rfl⟩ | ⟨w, hw, hd, rfl⟩ | ⟨w, i, u, hw, hd, he, rfl⟩ := running_step_cases hf h
    · exact inv_latchFault hs hfails
    · exact inv_diagnose hs hf hw hd
    · exact inv_effect hs hf hw hd he

end Sys2Proof.Claims
end

section
/-! PROOFS of the statements of spec/41_control_flow.md. First the words of R61 as the encoder packs them, and what a
skip and a fault leave; then each transfer, and from the call, the return and the live stack entries R99. -/

namespace Sys2Proof.Claims

open Sys2Proof.Machine

/-! The words of the statements are the encoder's -/

theorem wNnn_eq_wordNnn (c : BitVec 4) (nnn : Addr12) : wNnn (c.zeroExtend 16 <<< 12) nnn = wordNnn c nnn :=
  (Laws.wordNnn_eq c nnn).symm

theorem wXkk_eq_wordXkk (c : BitVec 4) (x : Reg) (kk : Byte) : wXkk (c.zeroExtend 16 <<< 12) x kk = wordXkk c x kk :=
  (Laws.wordXkk_eq c x kk).symm

theorem wXyn_eq_wordXyn (c : BitVec 4) (x y : Reg) (n : Nibble) :
    wXyn (c.zeroExtend 16 <<< 12) x y n = wordXyn c x y n :=
  (Laws.wordXyn_eq c x y n).symm

/-- In format XY without a sub-opcode the low nibble is 0. -/
theorem wXy_eq_wordXyn (c : BitVec 4) (x y : Reg) : wXy (c.zeroExtend 16 <<< 12) x y = wordXyn c x y 0 :=
  BitVec.or_zero.symm.trans (wXyn_eq_wordXyn c x y 0)

/-- A word that is the encoding of an instruction decodes to it. -/
theorem decodeWord_of_eq_encode {w : Word} {i : Instr} (h : w = encode i) : decodeWord w = .ok i :=
  h ▸ decodeWord_encode i

/-! What an answer looks like: a fault taken, and a skip -/

/-- An instruction whose check fails answers a state in which its fault is taken (R86). -/
theorem exec_faultedBy {i : Instr} {s : State} {c : Cause} (h : FailsWith i s c) :
    ∃ t, exec i s = .next t ∧ FaultedBy c (encode i) s t :=
  ⟨_, exec_of_fails i s c h, rfl, rfl, (SameBut.refl _ s).jump.latchFault (by decide)⟩

section Skip

variable {i : Instr} {s : State} {a b : Byte}

/-- A skip on equality moves `PC` alone (R90). -/
theorem exec_skip_of_eq (h : exec i s = .next (s.skipIf (a == b))) :
    ∃ t, exec i s = .next t ∧ SameBut [] s t ∧ t.pc = if a.toNat = b.toNat then s.pc + 2 else s.pc :=
  ⟨_, h, (SameBut.refl _ s).skipIf, by simp only [State.pc_skipIf, beq_iff_eq, BitVec.toNat_inj]⟩

/-- A skip on inequality moves `PC` alone (R90). -/
theorem exec_skip_of_ne (h : exec i s = .next (s.skipIf (a != b))) :
    ∃ t, exec i s = .next t ∧ SameBut [] s t ∧ t.pc = if a.toNat = b.toNat then s.pc else s.pc + 2 :=
  ⟨_, h, (SameBut.refl _ s).skipIf, by simp only [State.pc_skipIf, bne_iff_ne, ne_eq, ite_not, BitVec.toNat_inj]⟩

end Skip

/-! Return and call -/

/-- 00EE with an entry on the stack (R91). -/
theorem exec_ret_of_pos {s : State} (h : 0 < s.sp.val) :
    exec .ret s = .next ((s.setSp ⟨s.sp.val - 1, by omega⟩).jump (s.stack[s.sp.val - 1]'(by omega))) := by
  obtain ⟨t, ht, _, rfl⟩ := exec_of_not_fails .ret s fun _ ⟨_, hempty⟩ => Nat.ne_of_gt h hempty
  exact ht

/-- 2nnn with room on the stack (R93). -/
theorem exec_call_of_lt {s : State} (nnn : Addr12) (h : s.sp.val < 16) :
    exec (.call nnn) s =
      .next (((s.setEntry ⟨s.sp.val, h⟩ s.pc).setSp ⟨s.sp.val + 1, by omega⟩).jump (extAddr nnn)) := by
  obtain ⟨t, ht, _, rfl⟩ := exec_of_not_fails (.call nnn) s fun _ ⟨_, hfull⟩ => Nat.ne_of_lt h hfull
  exact ht

/-- Settles O28. The word is exact because a recognized word is the encoding of its instruction; then the pop
(`exec_ret_of_pos`), and on an empty stack the failed check. -/
theorem retPopsIntoPc : Obligations.RetPopsIntoPc := by
  refine ⟨fun w => ⟨fun h => ?_, fun h => ?_⟩, fun s h => ?_, fun s h => ?_⟩
  · exact (decodedWordEncodesBack w .ret h).symm
  · exact decodeWord_of_eq_encode (i := .ret) h
  · exact ⟨_, exec_ret_of_pos h, rfl, rfl, fun _ => rfl, ((SameBut.refl _ s).setSp (by decide)).jump⟩
  · exact exec_faultedBy (i := .ret) ⟨rfl, h⟩

/-- Settles O30: the push writes the entry at SP and no other (`exec_call_of_lt`); on a full stack the check fails. -/
theorem callPushesAndJumps : Obligations.CallPushesAndJumps := by
  intro nnn
  have hword : wNnn 0x2000 nnn = encode (.call nnn) := wNnn_eq_wordNnn 2 nnn
  refine ⟨decodeWord_of_eq_encode hword, fun s h => ?_, fun s h => ?_⟩
  · refine ⟨_, exec_call_of_lt nnn h, ?_, rfl, toNat_extAddr nnn, fun k hk => ?_,
      (((SameBut.refl _ s).setEntry (by decide)).setSp (by decide)).jump⟩
    · exact Vector.getElem_set_self h
    · exact Vector.getElem_set_ne h k.isLt (Ne.symm hk)
  · rw [hword]
    exact exec_faultedBy ⟨rfl, h⟩

/-- Along a run on which SP stays at or above k, the entries below k are live in every state, so none changes. -/
theorem RunAbove.keeps_entries {k : Nat} {s t : State} (h : RunAbove k s t) (hs : k ≤ s.sp.val) :
    k ≤ t.sp.val ∧ ∀ j : Fin 16, j.val < k → t.stack[j] = s.stack[j] := by
  induction h with
  | stay => exact ⟨hs, fun _ _ => rfl⟩
  | more t u _ hstep hu ih =>
    obtain ⟨ht, hkept⟩ := ih
    exact ⟨hu, fun j hj =>
      (liveStackEntriesAreKept t u hstep j (Nat.lt_of_lt_of_le hj ht)).trans (hkept j hj)⟩

/-- Settles O34. The call pushes a + 2 at the caller's SP (`callPushesAndJumps`), the run keeps that entry
(`RunAbove.keeps_entries`), and the return, one above the caller's SP again, pops it (`retPopsIntoPc`). -/
theorem returnComesBackToItsCall : Obligations.ReturnComesBackToItsCall := by
  intro s s1 t u nnn w w' hf hw hd hlt hcall hrun hsp hft hw' hd' hret
  obtain ⟨-, hpush, -⟩ := callPushesAndJumps nnn
  obtain ⟨-, hpop, -⟩ := retPopsIntoPc
  obtain ⟨s', hs', hentry, hsp1, -⟩ := hpush s.advance hlt
  obtain rfl := Host.Outcome.next.inj (hcall.symm.trans (step_of_exec hf hw hd hs'))
  have hdepth : t.sp.val = s.sp.val + 1 := (congrArg Fin.val hsp).trans hsp1
  obtain ⟨u', hu', hspu, hpcu, -⟩ := hpop t.advance (by rw [State.sp_advance, hdepth]; exact Nat.succ_pos _)
  obtain rfl := Host.Outcome.next.inj (hret.symm.trans (step_of_exec hft hw' hd' hu'))
  obtain ⟨-, hkept⟩ := hrun.keeps_entries (Nat.le_refl _)
  constructor
  · calc u'.pc = t.stack[t.sp.val - 1]'(by omega) := hpcu
      _ = t.stack[s.sp.val] := by simp only [hdepth, Nat.add_sub_cancel]
      _ = s'.stack[s.sp.val] := hkept ⟨s.sp.val, hlt⟩ (hsp1 ▸ Nat.lt_succ_self _)
      _ = s.pc + 2 := hentry
  · apply Fin.ext
    calc u'.sp.val = t.sp.val - 1 := hspu
      _ = s.sp.val := by rw [hdepth, Nat.add_sub_cancel]

/-! Jumps -/

/-- Settles O29: the target is the 12-bit address, and a jump writes `PC` alone. -/
theorem jpSetsPc : Obligations.JpSetsPc := fun nnn =>
  ⟨decodeWord_of_eq_encode (wNnn_eq_wordNnn 1 nnn), fun s =>
    ⟨_, rfl, toNat_extAddr nnn, (SameBut.refl _ s).jump⟩⟩

/-- Settles O33: the 16-bit sum is exact (`toNat_jumpOffset`), and above 0xFFE nothing can be fetched there. -/
theorem jpV0AddsWithoutReduction : Obligations.JpV0AddsWithoutReduction := by
  intro nnn
  refine ⟨decodeWord_of_eq_encode (wNnn_eq_wordNnn 0xB nnn), fun s => ?_⟩
  have hpc : (s.jump (jumpOffset nnn (s.reg 0))).pc.toNat = nnn.toNat + (s.reg 0).toNat := toNat_jumpOffset _ _
  refine ⟨_, rfl, hpc, (SameBut.refl _ s).jump, fun hf hsum => ?_⟩
  exact ⟨_, step_of_no_fetch hf ((fetch_eq_none _).2 (hpc ▸ hsum)), rfl⟩

/-! Skips -/

/-- Settles O31: one skip on equality and one on inequality with the immediate. -/
theorem skipsOnImmediate : Obligations.SkipsOnImmediate := fun x kk =>
  ⟨decodeWord_of_eq_encode (wXkk_eq_wordXkk 3 x kk), decodeWord_of_eq_encode (wXkk_eq_wordXkk 4 x kk), fun _ =>
    ⟨exec_skip_of_eq rfl, exec_skip_of_ne rfl⟩⟩

/-- The classes 5 and 9 refuse every low nibble but 0 (R63). -/
theorem decodeWord_wordXyn_refused {c : BitVec 4} (hc : c = 5 ∨ c = 9) (x y : Reg) {n : Nibble} (hn : n ≠ 0#4) :
    decodeWord (wordXyn c x y n) = .error (.unrecognized (wordXyn c x y n)) := by
  obtain rfl | rfl := hc
  · simp [decodeWord, decode5, hn]
  · simp [decodeWord, decode9, hn]

/-- Settles O32: the low nibble decides whether the word is recognized, and the two skips are those of the immediate
forms with Vy for kk. -/
theorem skipsOnRegisters : Obligations.SkipsOnRegisters := by
  refine ⟨fun x y n hn => ⟨?_, ?_⟩, fun x y => ⟨?_, ?_, fun _ => ⟨exec_skip_of_eq rfl, exec_skip_of_ne rfl⟩⟩⟩
  · exact wXyn_eq_wordXyn 5 x y n ▸ decodeWord_wordXyn_refused (.inl rfl) x y hn
  · exact wXyn_eq_wordXyn 9 x y n ▸ decodeWord_wordXyn_refused (.inr rfl) x y hn
  · exact decodeWord_of_eq_encode (wXy_eq_wordXyn 5 x y)
  · exact decodeWord_of_eq_encode (wXy_eq_wordXyn 9 x y)

end Sys2Proof.Claims
end

section
/-! PROOFS of the statements of spec/42_alu.md. First the words of class 8, and what an answer is that writes one register,
a result and then a flag, or a flag and then a result (R85); then the flags and the results as numbers, and each family
of instructions. -/

namespace Sys2Proof.Claims

open Sys2Proof.Machine

/-- In format XY a sub-opcode is the low nibble. -/
theorem wXy_subop_eq_wordXyn (c n : BitVec 4) (x y : Reg) :
    wXy (c.zeroExtend 16 <<< 12 ||| n.zeroExtend 16) x y = wordXyn c x y n :=
  (BitVec.or_assoc _ _ _).trans (Laws.xy_word c n x y).symm

/-- VF is register 15 (R12, D1). -/
theorem flagReg_eq : Config.flagReg = 15 := rfl

/-! What an answer looks like, by the order of its writes -/

section Writes

variable {i : Instr} {s : State} {x : Reg} {b : Byte}

/-- An answer that writes one register. -/
theorem exec_setReg (h : exec i s = .next (s.setReg x b)) :
    ∃ t, exec i s = .next t ∧ t.pc = s.pc ∧ t.reg x = b ∧ (∀ r, r ≠ x → t.reg r = s.reg r) ∧ SameBut [.regs] s t := by
  refine ⟨_, h, rfl, ?_, fun r hr => ?_, (SameBut.refl _ s).setReg (by decide)⟩
  · rw [State.reg_setReg, if_pos rfl]
  · rw [State.reg_setReg, if_neg hr.symm]

/-- An answer that writes one register, the value written given by its bits. -/
theorem exec_setReg_bits {bit : Nat → Bool} (h : exec i s = .next (s.setReg x b)) (hbit : ∀ k, b.getLsbD k = bit k) :
    ∃ t, exec i s = .next t ∧ t.pc = s.pc ∧ (∀ r, r ≠ x → t.reg r = s.reg r) ∧ SameBut [.regs] s t ∧
      ∀ k < 8, (t.reg x).getLsbD k = bit k := by
  obtain ⟨t, ht, hpc, hresult, hframe, hsame⟩ := exec_setReg h
  exact ⟨t, ht, hpc, hframe, hsame, fun k _ => hresult ▸ hbit k⟩

/-- An answer that writes a result and then the flag (R85): VF ends with the flag, whatever x is. -/
theorem exec_setResultThenFlag {f : Bool} (h : exec i s = .next (s.setResultThenFlag x b f)) :
    ∃ t, exec i s = .next t ∧ t.pc = s.pc ∧ t.reg 15 = flagByte f ∧ (x ≠ 15 → t.reg x = b) ∧
      (∀ r, r ≠ x → r ≠ 15 → t.reg r = s.reg r) ∧ SameBut [.regs] s t := by
  refine ⟨_, h, rfl, ?_, fun hx => ?_, fun r hr hf => ?_,
    ((SameBut.refl _ s).setReg (by decide)).setReg (by decide)⟩
  · rw [State.reg_setResultThenFlag, flagReg_eq, if_pos rfl]
  · rw [State.reg_setResultThenFlag, flagReg_eq, if_neg hx.symm, if_pos rfl]
  · rw [State.reg_setResultThenFlag, flagReg_eq, if_neg hf.symm, if_neg hr.symm]

/-- An answer that writes the flag and then the result of the register as it was (R85, D2): Vx ends with the result,
whatever x is. -/
theorem exec_setFlagThenResult {flag : Byte → Bool} {op : Byte → Byte}
    (h : exec i s = .next (s.setFlagThenResult .sampled x flag op)) :
    ∃ t, exec i s = .next t ∧ t.pc = s.pc ∧ t.reg x = op (s.reg x) ∧
      (x ≠ 15 → t.reg 15 = flagByte (flag (s.reg x))) ∧
      (∀ r, r ≠ x → r ≠ 15 → t.reg r = s.reg r) ∧ SameBut [.regs] s t := by
  refine ⟨_, h, rfl, ?_, fun hx => ?_, fun r hr hf => s.reg_setFlagThenResult_of_ne hr hf _ _ _,
    ((SameBut.refl _ s).setReg (by decide)).setReg (by decide)⟩
  · rw [State.reg_setFlagThenResult, if_pos rfl, if_neg (by simp)]
  · rw [State.reg_setFlagThenResult, flagReg_eq, if_neg hx, if_pos rfl]

end Writes

/-! The flags and the difference as numbers (R100) -/

/-- The flag of a condition. -/
theorem flagByte_decide (p : Prop) [Decidable p] : flagByte (decide p) = if p then 1 else 0 := by
  simp only [flagByte, decide_eq_true_eq]

theorem toNat_flagByte (f : Bool) : (flagByte f).toNat = f.toNat := by
  cases f <;> rfl

/-- The flag of one bit of a byte is that binary digit. -/
theorem toNat_flagByte_getLsbD (a : Byte) (k : Nat) : (flagByte (a.getLsbD k)).toNat = a.toNat / 2 ^ k % 2 := by
  rw [toNat_flagByte, ← BitVec.testBit_toNat, Nat.toNat_testBit]

/-- The 8-bit difference is the exact one modulo 256. -/
theorem toNat_sub_eq_emod (a b : Byte) : ((a - b).toNat : Int) = (a.toNat - b.toNat : Int) % 256 := by
  have hb : b.toNat < 256 := b.isLt
  rw [BitVec.toNat_sub]
  omega

/-! Add with carry, subtract -/

/-- Settles O38: the sum, then the flag (`exec_setResultThenFlag`), and the flag is the carry. -/
theorem addSetsCarry : Obligations.AddSetsCarry := by
  refine fun x y => ⟨decodeWord_of_eq_encode (wXy_subop_eq_wordXyn 8 4 x y), fun s => ?_⟩
  obtain ⟨t, ht, hpc, hflag, hresult, hframe⟩ := exec_setResultThenFlag (i := .addVy x y) (s := s) rfl
  refine ⟨t, ht, hpc, hflag.trans (flagByte_decide _), fun hx => ?_, hframe⟩
  rw [hresult hx, BitVec.toNat_add]

/-- An answer that writes a difference and then its flag: VF is 1 when no borrow occurs, and the difference is exact
modulo 256 (R108, R110). -/
theorem exec_subtract {i : Instr} {s : State} {x : Reg} {a b : Byte}
    (h : exec i s = .next (s.setResultThenFlag x (a - b) (noBorrow a b))) :
    ∃ t, exec i s = .next t ∧ t.pc = s.pc ∧ t.reg 15 = (if b.toNat ≤ a.toNat then 1 else 0) ∧
      (x ≠ 15 → ((t.reg x).toNat : Int) = (a.toNat - b.toNat : Int) % 256) ∧
      (∀ r, r ≠ x → r ≠ 15 → t.reg r = s.reg r) ∧ SameBut [.regs] s t := by
  obtain ⟨t, ht, hpc, hflag, hresult, hframe⟩ := exec_setResultThenFlag h
  refine ⟨t, ht, hpc, hflag.trans (flagByte_decide _), fun hx => ?_, hframe⟩
  rw [hresult hx, toNat_sub_eq_emod]

/-- Settles O39: the two subtractions are one (`exec_subtract`), with minuend and subtrahend exchanged. -/
theorem subtractsSetNoBorrow : Obligations.SubtractsSetNoBorrow := fun x y =>
  ⟨decodeWord_of_eq_encode (wXy_subop_eq_wordXyn 8 5 x y), decodeWord_of_eq_encode (wXy_subop_eq_wordXyn 8 7 x y),
    fun _ => ⟨exec_subtract rfl, exec_subtract rfl⟩⟩

/-! Shifts -/

/-- Settles O40: the flag, then the result (`exec_setFlagThenResult`). A right shift halves the byte and drops its last
binary digit, a left shift doubles it and drops its first. -/
theorem shiftsSetTheDroppedBit : Obligations.ShiftsSetTheDroppedBit := by
  refine fun x y => ⟨decodeWord_of_eq_encode (wXy_subop_eq_wordXyn 8 6 x y),
    decodeWord_of_eq_encode (wXy_subop_eq_wordXyn 8 0xE x y), fun s => ⟨?_, ?_⟩⟩
  · obtain ⟨t, ht, hpc, hresult, hflag, hframe⟩ := exec_setFlagThenResult (i := .shr x y) (s := s) rfl
    refine ⟨t, ht, hpc, ?_, fun hx => ?_, hframe⟩
    · rw [hresult, BitVec.toNat_ushiftRight, Nat.shiftRight_one]
    · rw [hflag hx, lowBit, toNat_flagByte_getLsbD, Nat.pow_zero, Nat.div_one]
  · obtain ⟨t, ht, hpc, hresult, hflag, hframe⟩ := exec_setFlagThenResult (i := .shl x y) (s := s) rfl
    refine ⟨t, ht, hpc, ?_, fun hx => ?_, hframe⟩
    · rw [hresult, BitVec.toNat_shiftLeft, Nat.shiftLeft_eq, Nat.pow_one]
    · have hlt : (s.reg x).toNat < 256 := (s.reg x).isLt
      rw [hflag hx, highBit, toNat_flagByte_getLsbD]
      omega

/-! One register written, no flag -/

/-- Settles O35: the immediate, or Vy, is what the one register written holds. -/
theorem loadsAndCopies : Obligations.LoadsAndCopies := fun x y kk =>
  ⟨decodeWord_of_eq_encode (wXkk_eq_wordXkk 6 x kk), decodeWord_of_eq_encode (wXy_eq_wordXyn 8 x y), fun _ =>
    ⟨exec_setReg rfl, exec_setReg rfl⟩⟩

/-- Settles O36: the 8-bit sum wraps, and VF is a register like any other. -/
theorem addImmediateWraps : Obligations.AddImmediateWraps := by
  refine fun x kk => ⟨decodeWord_of_eq_encode (wXkk_eq_wordXkk 7 x kk), fun s => ?_⟩
  obtain ⟨t, ht, hpc, hresult, hframe⟩ := exec_setReg (i := .addKk x kk) (s := s) rfl
  exact ⟨t, ht, hpc, hresult ▸ BitVec.toNat_add _ _, hframe⟩

/-- Settles O37: bit k of each result is the connective of the two bits k. -/
theorem logicIsBitwise : Obligations.LogicIsBitwise := fun x y =>
  ⟨decodeWord_of_eq_encode (wXy_subop_eq_wordXyn 8 1 x y), decodeWord_of_eq_encode (wXy_subop_eq_wordXyn 8 2 x y),
    decodeWord_of_eq_encode (wXy_subop_eq_wordXyn 8 3 x y), fun _ =>
    ⟨exec_setReg_bits rfl fun _ => BitVec.getLsbD_or, exec_setReg_bits rfl fun _ => BitVec.getLsbD_and,
      exec_setReg_bits rfl fun _ => BitVec.getLsbD_xor⟩⟩

/-- Settles O41: a bit of the masked byte is a bit of the mask. -/
theorem randomByteIsMasked : Obligations.RandomByteIsMasked := by
  refine fun x kk => ⟨decodeWord_of_eq_encode (wXkk_eq_wordXkk 0xC x kk), fun s => ?_⟩
  obtain ⟨t, ht, hpc, hresult, hframe⟩ := exec_setReg (i := .rnd x kk) (s := s) rfl
  refine ⟨t, ht, hpc, hresult, fun b _ hb => ?_, hframe⟩
  rw [hresult, BitVec.getLsbD_and, Bool.and_eq_true] at hb
  exact hb.2

end Sys2Proof.Claims
end

section
/-! PROOFS of the statements of spec/43_address_memory.md. First the words of class F, and what each access answers when
it fits; then what an answer is that sets `I`, stores bytes or loads registers, and each instruction. -/

namespace Sys2Proof.Claims

open Sys2Proof.Machine

/-- In format X the low byte is a sub-opcode. -/
theorem wX_eq_wordXkk (c : BitVec 4) (x : Reg) (kk : Byte) :
    wX (c.zeroExtend 16 <<< 12 ||| kk.zeroExtend 16) x = wordXkk c x kk :=
  (Laws.x_word c kk x).symm

section Access

variable {i : Instr} {s : State} {x : Reg} {a : Word} {bs : List Byte}

/-! Each instruction with a check, when its check holds -/

/-- Fx1E with a sum up to 0xFFF (R122). -/
theorem exec_addI_of_le (h : s.i.toNat + (s.reg x).toNat ≤ 0xFFF) :
    ∃ a : Word, exec (.addI x) s = .next (s.setI a) ∧ a.toNat = s.i.toNat + (s.reg x).toNat := by
  obtain ⟨t, ht, a, -, ha, rfl⟩ := exec_of_not_fails (.addI x) s fun _ ⟨_, hover⟩ => Nat.not_lt.2 h hover
  exact ⟨a, ht, ha⟩

/-- Fx33 with three bytes from `I` up in Memory (R124). -/
theorem exec_ldB_of_le (h : s.i.toNat ≤ 0xFFD) :
    exec (.ldB x) s = .next (s.setMem (s.mem.writeBytes s.i.toNat (bcdDigits (s.reg x)))) := by
  obtain ⟨t, ht, -, rfl⟩ := exec_of_not_fails (.ldB x) s fun _ ⟨_, hout⟩ => by omega
  exact ht

/-- Fx55 with all its bytes in Memory (R125). -/
theorem exec_stRegs_of_le (h : s.i.toNat + x.toNat ≤ 0xFFF) :
    exec (.stRegs x) s = .next (s.setMem (s.mem.writeBytes s.i.toNat (s.regsUpTo x))) := by
  obtain ⟨t, ht, -, rfl⟩ := exec_of_not_fails (.stRegs x) s fun _ ⟨_, hout⟩ => Nat.not_lt.2 h hout
  exact ht

/-- Fx65 with all its bytes in Memory (R126). -/
theorem exec_ldRegs_of_le (h : s.i.toNat + x.toNat ≤ 0xFFF) :
    exec (.ldRegs x) s = .next (s.setRegsFrom 0 (s.mem.readBytes s.i.toNat (x.toNat + 1))) := by
  obtain ⟨t, ht, -, rfl⟩ := exec_of_not_fails (.ldRegs x) s fun _ ⟨_, hout⟩ => Nat.not_lt.2 h hout
  exact ht

/-! What an answer looks like: `I` set, bytes stored, registers loaded -/

/-- An answer that sets `I`, the value given as a number. -/
theorem exec_setI {n : Nat} (h : exec i s = .next (s.setI a)) (ha : a.toNat = n) :
    ∃ t, exec i s = .next t ∧ t.pc = s.pc ∧ t.i.toNat = n ∧ SameBut [.index] s t :=
  ⟨_, h, rfl, ha, (SameBut.refl _ s).setI (by decide)⟩

/-- An answer that stores bytes from `I` up: each is read back at its place, and every other address reads as before. -/
theorem exec_writeBytes (h : exec i s = .next (s.setMem (s.mem.writeBytes s.i.toNat bs))) :
    ∃ t, exec i s = .next t ∧ t.pc = s.pc ∧
      (∀ k (hk : k < bs.length), t.mem.read (s.i.toNat + k) = bs[k]) ∧
      (∀ a, (a < s.i.toNat ∨ s.i.toNat + bs.length ≤ a) → t.mem.read a = s.mem.read a) ∧ SameBut [.memory] s t := by
  refine ⟨_, h, rfl, fun k hk => ?_, fun a ha => ?_, (SameBut.refl _ s).setMem (by decide)⟩
  · have hin : s.i.toNat ≤ s.i.toNat + k ∧ s.i.toNat + k < s.i.toNat + bs.length := by omega
    rw [State.mem_setMem, Memory.read_writeBytes, dif_pos hin]
    simp only [Nat.add_sub_cancel_left]
  · rw [State.mem_setMem, Memory.read_writeBytes_of_not_mem _ _ _ _ ha]

/-- V0 to Vx loaded from the bytes at an address: each of them holds its byte, and the registers above x are kept. -/
theorem reg_setRegsFrom_readBytes (m : Memory) (c : Nat) (r : Reg) :
    (s.setRegsFrom 0 (m.readBytes c (x.toNat + 1))).reg r =
      if r.toNat ≤ x.toNat then m.read (c + r.toNat) else s.reg r := by
  have hx : x.toNat < 16 := x.isLt
  rw [State.reg_setRegsFrom _ _ _ (by rw [Memory.length_readBytes]; omega)]
  simp

end Access

/-! The address register -/

/-- Settles O43: both set `I` alone (`exec_setI`), to the 12-bit address and to the exact product. -/
theorem indexLoads : Obligations.IndexLoads := fun nnn x =>
  ⟨decodeWord_of_eq_encode (wNnn_eq_wordNnn 0xA nnn), decodeWord_of_eq_encode (wX_eq_wordXkk 0xF x 0x29), fun _ =>
    ⟨exec_setI rfl (toNat_extAddr nnn), exec_setI rfl (toNat_glyphAddr _)⟩⟩

/-- Settles O44: up to 0xFFF the sum is exact (`exec_addI_of_le`), above it the check fails. -/
theorem addIndexOrFault : Obligations.AddIndexOrFault := by
  intro x
  have hword : wX 0xF01E x = encode (.addI x) := wX_eq_wordXkk 0xF x 0x1E
  refine ⟨decodeWord_of_eq_encode hword, fun s h => ?_, fun s h => ?_⟩
  · obtain ⟨a, ht, ha⟩ := exec_addI_of_le h
    exact exec_setI ht ha
  · rw [hword]
    exact exec_faultedBy ⟨rfl, h⟩

/-! Stores and loads -/

/-- The three bytes of R124 are the decimal digits of the byte. -/
theorem bcdDigits_eq_digits (b : Byte) : ∃ h m l : Byte, bcdDigits b = [h, m, l] ∧
    h.toNat ≤ 2 ∧ m.toNat ≤ 9 ∧ l.toNat ≤ 9 ∧ b.toNat = 100 * h.toNat + 10 * m.toNat + l.toNat := by
  have hb : b.toNat < 256 := b.isLt
  refine ⟨_, _, _, rfl, ?_⟩
  simp only [BitVec.toNat_ofNat]
  omega

/-- Settles O45: the bytes stored (`exec_writeBytes`) are the three digits (`bcdDigits_eq_digits`); above 0xFFD the
check fails. -/
theorem decimalDigitsAreStored : Obligations.DecimalDigitsAreStored := by
  intro x
  have hword : wX 0xF033 x = encode (.ldB x) := wX_eq_wordXkk 0xF x 0x33
  refine ⟨decodeWord_of_eq_encode hword, fun s hi => ?_, fun s hi => ?_⟩
  · obtain ⟨h, m, l, hdigits, hh, hm, hl, hsum⟩ := bcdDigits_eq_digits (s.reg x)
    obtain ⟨t, ht, hpc, hread, hkept, hsame⟩ := exec_writeBytes (hdigits ▸ exec_ldB_of_le (x := x) hi)
    exact ⟨t, h, m, l, ht, hpc, hread 0 (by simp), hread 1 (by simp), hread 2 (by simp), hh, hm, hl, hsum, hkept,
      hsame⟩
  · rw [hword]
    exact exec_faultedBy ⟨rfl, by omega⟩

/-- Settles O46: the bytes stored (`exec_writeBytes`) are the registers in order; past 0xFFF the check fails. -/
theorem registersAreStored : Obligations.RegistersAreStored := by
  intro x
  have hword : wX 0xF055 x = encode (.stRegs x) := wX_eq_wordXkk 0xF x 0x55
  refine ⟨decodeWord_of_eq_encode hword, fun s h => ?_, fun s h => ?_⟩
  · obtain ⟨t, ht, hpc, hread, hkept, hsame⟩ := exec_writeBytes (exec_stRegs_of_le h)
    rw [State.length_regsUpTo] at hkept
    refine ⟨t, ht, hpc, fun r hr => ?_, hkept, hsame⟩
    have hk : r.toNat < (s.regsUpTo x).length := by rw [State.length_regsUpTo]; omega
    rw [hread r.toNat hk, State.getElem_regsUpTo, BitVec.ofNat_toNat, BitVec.setWidth_eq]
  · rw [hword]
    exact exec_faultedBy ⟨rfl, h⟩

/-- Settles O47: each register up to x holds its byte, the others are kept (`reg_setRegsFrom_readBytes`); past 0xFFF the
check fails. -/
theorem registersAreLoaded : Obligations.RegistersAreLoaded := by
  intro x
  have hword : wX 0xF065 x = encode (.ldRegs x) := wX_eq_wordXkk 0xF x 0x65
  refine ⟨decodeWord_of_eq_encode hword, fun s h => ?_, fun s h => ?_⟩
  · refine ⟨_, exec_ldRegs_of_le h, State.pc_setRegsFrom _ _ _, fun r hr => ?_, fun r hr => ?_,
      (SameBut.refl _ s).setRegsFrom (by decide)⟩
    · rw [reg_setRegsFrom_readBytes, if_pos hr]
    · rw [reg_setRegsFrom_readBytes, if_neg (Nat.not_le.2 hr)]
  · rw [hword]
    exact exec_faultedBy ⟨rfl, h⟩

/-- Settles O48: the load takes each register from the address the store put it at. -/
theorem storedRegistersLoadBack : Obligations.StoredRegistersLoadBack := by
  intro x s u hfits
  obtain ⟨-, hstore, -⟩ := registersAreStored x
  obtain ⟨-, hload, -⟩ := registersAreLoaded x
  obtain ⟨t, ht, -, hstored, -⟩ := hstore s hfits
  refine ⟨t, ht, fun hi hmem => ?_⟩
  obtain ⟨u', hu', -, hloaded, -⟩ := hload u (by rwa [hi])
  refine ⟨u', hu', fun r hr => ?_⟩
  calc u'.reg r = u.mem.read (u.i.toNat + r.toNat) := hloaded r hr
    _ = t.mem.read (s.i.toNat + r.toNat) := by rw [hi, hmem]
    _ = s.reg r := hstored r hr

end Sys2Proof.Claims
end

section
/-! PROOFS of the statements of spec/44_display.md. First what it is to invert a set of pixels and how two such drawings
compose; from that one sprite bit, one row and the whole sprite (R133); then 00E0, Dxyn, the double draw and the host's
read ports. -/

namespace Sys2Proof.Claims

open Sys2Proof.Machine

/-! Drawing inverts a set of pixels -/

/-- From d to e exactly the pixels of S are inverted, and the collision flag is set when one of them was on; a flag that
is set stays set (R133). -/
structure Inverts (S : Fin 64 → Fin 32 → Prop) (d e : FrameBuffer × Bool) : Prop where
  pixel_of_mem : ∀ px py, S px py → FrameBuffer.pixel e.1 px py = !FrameBuffer.pixel d.1 px py
  pixel_of_not_mem : ∀ px py, ¬ S px py → FrameBuffer.pixel e.1 px py = FrameBuffer.pixel d.1 px py
  collides_iff : e.2 = true ↔ d.2 = true ∨ ∃ px py, FrameBuffer.pixel d.1 px py = true ∧ S px py

section Compose

variable {S T U : Fin 64 → Fin 32 → Prop} {d e f : FrameBuffer × Bool}

theorem Inverts.congr (hS : ∀ px py, T px py ↔ S px py) (h : Inverts S d e) : Inverts T d e := by
  obtain rfl : T = S := funext₂ fun px py => propext (hS px py)
  exact h

/-- Drawing nothing inverts nothing. -/
theorem Inverts.refl (hS : ∀ px py, ¬ S px py) (d : FrameBuffer × Bool) : Inverts S d d where
  pixel_of_mem px py hin := absurd hin (hS px py)
  pixel_of_not_mem _ _ _ := rfl
  collides_iff := by simp [hS]

/-- Two drawings one after the other invert both their sets when these have no pixel in common: the second finds its
pixels as the first did. -/
theorem Inverts.trans (hS : Inverts S d e) (hT : Inverts T e f) (hdisj : ∀ px py, S px py → ¬ T px py) :
    Inverts (fun px py => S px py ∨ T px py) d f where
  pixel_of_mem := by
    rintro px py (hin | hin)
    · rw [hT.pixel_of_not_mem px py (hdisj px py hin), hS.pixel_of_mem px py hin]
    · rw [hT.pixel_of_mem px py hin, hS.pixel_of_not_mem px py fun h => hdisj px py h hin]
  pixel_of_not_mem px py hout := by
    rw [not_or] at hout
    rw [hT.pixel_of_not_mem px py hout.2, hS.pixel_of_not_mem px py hout.1]
  collides_iff := by
    have hfound (px py) : (FrameBuffer.pixel e.1 px py = true ∧ T px py) ↔
        (FrameBuffer.pixel d.1 px py = true ∧ T px py) :=
      and_congr_left fun hin => by rw [hS.pixel_of_not_mem px py fun h => hdisj px py h hin]
    simp only [hT.collides_iff, hS.collides_iff, hfound, and_or_left, exists_or, or_assoc]

end Compose

/-! A sprite bit, a sprite row, the sprite -/

/-- A 1 bit among the first n columns of the sprite row lies on the pixel (R133). -/
def RowOn (x : Nat) (qy : Fin 32) (row : Byte) (n : Nat) (px : Fin 64) (py : Fin 32) : Prop :=
  ∃ col, col < n ∧ spriteBit row col = true ∧ px = pixelX x col ∧ py = qy

/-- One sprite bit inverts its own pixel when it is 1. -/
theorem drawBit_inverts (x : Nat) (qy : Fin 32) (row : Byte) (d : FrameBuffer × Bool) (col : Nat) :
    Inverts (fun px py => spriteBit row col = true ∧ px = pixelX x col ∧ py = qy) d (drawBit x qy row d col) := by
  obtain ⟨hflag, hpixel⟩ := drawBit_eq x qy row d col
  have hset (px py) : (spriteBit row col && (decide (px = pixelX x col) && decide (py = qy))) =
      decide (spriteBit row col = true ∧ px = pixelX x col ∧ py = qy) := by
    rw [Bool.decide_and, Bool.decide_and, Bool.decide_eq_true]
  refine ⟨fun px py hin => ?_, fun px py hout => ?_, ?_⟩
  · rw [hpixel, hset, decide_eq_true hin, Bool.xor_true]
  · rw [hpixel, hset, decide_eq_false hout, Bool.xor_false]
  · rw [hflag, Bool.or_eq_true, Bool.and_eq_true]
    refine or_congr_right ⟨fun ⟨hbit, hon⟩ => ⟨_, _, hon, hbit, rfl, rfl⟩, ?_⟩
    rintro ⟨_, _, hon, hbit, rfl, rfl⟩
    exact ⟨hbit, hon⟩

/-- The eight columns of a row fall on eight different pixels. -/
theorem pixelX_injOn (x : Nat) {c c' : Nat} (hc : c < 8) (hc' : c' < 8) (h : pixelX x c = pixelX x c') : c = c' := by
  have hmod : (x + c) % 64 = (x + c') % 64 := congrArg Fin.val h
  omega

/-- The first n columns, by induction: the next column's pixel is none of theirs. -/
theorem foldl_drawBit_inverts (x : Nat) (qy : Fin 32) (row : Byte) (d : FrameBuffer × Bool) (n : Nat) (hn : n ≤ 8) :
    Inverts (RowOn x qy row n) d ((List.range n).foldl (drawBit x qy row) d) := by
  induction n with
  | zero => exact .refl (fun px py ⟨col, hcol, _⟩ => absurd hcol (Nat.not_lt_zero col)) d
  | succ n ih =>
    rw [List.range_succ, List.foldl_append]
    refine ((ih (Nat.le_of_succ_le hn)).trans (drawBit_inverts x qy row _ n) ?_).congr fun px py => ?_
    · rintro _ _ ⟨col, hcol, -, rfl, -⟩ ⟨-, hsame, -⟩
      exact Nat.ne_of_lt hcol (pixelX_injOn x (by omega) hn hsame)
    · simp only [RowOn, Nat.lt_succ_iff_lt_or_eq, or_and_right, exists_or, exists_eq_left]

theorem drawRow_inverts (x : Nat) (qy : Fin 32) (row : Byte) (d : FrameBuffer × Bool) :
    Inverts (RowOn x qy row 8) d (drawRow x qy row d) :=
  foldl_drawBit_inverts x qy row d 8 (Nat.le_refl 8)

section Sprite

variable {x y n : Nat} {row row' : Nat → Byte} {px : Fin 64} {py : Fin 32}

/-- Only the n rows of the sprite matter. -/
theorem spriteOn_congr (h : ∀ r < n, row' r = row r) : SpriteOn x y n row' px py ↔ SpriteOn x y n row px py := by
  refine exists₂_congr fun r col => and_congr_right fun hr => ?_
  rw [h r hr]

/-- A sprite is its first row, and below it the sprite of the others. -/
theorem spriteOn_succ : SpriteOn x y (n + 1) row px py ↔
    RowOn x (pixelY y 0) (row 0) 8 px py ∨ SpriteOn x (y + 1) n (fun r => row (r + 1)) px py := by
  constructor
  · rintro ⟨_ | r, col, hr, hcol, hbit, hpx, hpy⟩
    · exact .inl ⟨col, hcol, hbit, Fin.ext hpx, Fin.ext hpy⟩
    · exact .inr ⟨r, col, by omega, hcol, hbit, hpx, by omega⟩
  · rintro (⟨col, hcol, hbit, rfl, rfl⟩ | ⟨r, col, hr, hcol, hbit, hpx, hpy⟩)
    · exact ⟨0, col, by omega, hcol, hbit, rfl, rfl⟩
    · exact ⟨r + 1, col, by omega, hcol, hbit, hpx, by omega⟩

/-- Some pixel lies under the sprite exactly when one of its rows has a 1 bit. -/
theorem exists_spriteOn_iff : (∃ px py, SpriteOn x y n row px py) ↔ ∃ r < n, row r ≠ 0 := by
  constructor
  · rintro ⟨_, _, r, col, hr, -, hbit, -⟩
    refine ⟨r, hr, fun hzero => ?_⟩
    simp [hzero] at hbit
  · rintro ⟨r, hr, hne⟩
    obtain ⟨k, hk, hbit⟩ : ∃ k < 8, (row r).getLsbD k = true := by
      by_contra hnone
      push Not at hnone
      exact hne (BitVec.eq_of_getLsbD_eq fun k hk => by simpa using hnone k hk)
    exact ⟨pixelX x (7 - k), pixelY y r, r, 7 - k, hr, by omega, by rwa [Nat.sub_sub_self (by omega)], rfl, rfl⟩

end Sprite

/-- The rows from row r on, by induction: at most 32 rows lie on different rows of the grid, so no later row meets the
first one's pixels. -/
theorem drawFrom_inverts (x y r : Nat) (rows : List Byte) (d : FrameBuffer × Bool) (hlen : rows.length ≤ 32) :
    Inverts (SpriteOn x (y + r) rows.length fun k => rows.getD k 0) d (drawFrom x y r rows d) := by
  induction rows generalizing r d with
  | nil => exact .refl (fun px py ⟨k, _, hk, _⟩ => absurd hk (Nat.not_lt_zero k)) d
  | cons row rows ih =>
    rw [List.length_cons] at hlen
    refine ((drawRow_inverts x (pixelY y r) row d).trans (ih (r + 1) _ (by omega)) ?_).congr fun _ _ => spriteOn_succ
    rintro px _ ⟨-, -, -, -, rfl⟩ ⟨k, -, hk, -, -, -, hsame⟩
    simp only [pixelY] at hsame
    omega

/-- A draw inverts exactly the pixels under the sprite, and collides exactly when one of them was on (R133). -/
theorem draw_inverts (f : FrameBuffer) (x y : Nat) (rows : List Byte) (hlen : rows.length ≤ 32) :
    Inverts (SpriteOn x y rows.length fun k => rows.getD k 0) (f, false) (draw f x y rows) :=
  drawFrom_inverts x y 0 rows (f, false) hlen

/-- The rows of a sprite in Memory. -/
theorem getD_readBytes (m : Memory) (a : Nat) {n k : Nat} (hk : k < n) :
    (m.readBytes a n).getD k 0 = m.read (a + k) := by
  have hlen : k < (m.readBytes a n).length := by rwa [Memory.length_readBytes]
  rw [List.getD_eq_getElem _ _ hlen, Memory.getElem_readBytes]

/-- A draw of n rows from Memory. -/
theorem draw_readBytes_inverts (f : FrameBuffer) (x y : Nat) (m : Memory) (a : Nat) (n : Nibble) :
    Inverts (SpriteOn x y n.toNat fun r => m.read (a + r)) (f, false) (draw f x y (m.readBytes a n.toNat)) := by
  have hn : n.toNat < 16 := n.isLt
  have h := draw_inverts f x y (m.readBytes a n.toNat) (by rw [Memory.length_readBytes]; omega)
  rw [Memory.length_readBytes] at h
  exact h.congr fun _ _ => spriteOn_congr fun r hr => (getD_readBytes m a hr).symm

/-! Draw and clear -/

theorem flagByte_eq_zero_or_one (f : Bool) : flagByte f = 0 ∨ flagByte f = 1 := by
  cases f
  · exact .inl rfl
  · exact .inr rfl

theorem flagByte_eq_one_iff (f : Bool) : flagByte f = 1 ↔ f = true := by
  cases f <;> decide

/-- Dxyn with all its rows in Memory (R132). -/
theorem exec_drw_of_fits {x y : Reg} {n : Nibble} {s : State} (h : n.toNat = 0 ∨ s.i.toNat + n.toNat - 1 ≤ 0xFFF) :
    exec (.drw x y n) s = .next ((s.setFb
      (draw s.fb (s.reg x).toNat (s.reg y).toNat (s.mem.readBytes s.i.toNat n.toNat)).1).setFlag
      (draw s.fb (s.reg x).toNat (s.reg y).toNat (s.mem.readBytes s.i.toNat n.toNat)).2) := by
  obtain ⟨t, ht, -, rfl⟩ := exec_of_not_fails (.drw x y n) s fun _ ⟨_, hrows, hout⟩ => by omega
  exact ht

/-- An answer that draws: the screen shows the drawing, VF is its collision, every other register is kept. -/
theorem exec_drawn {i : Instr} {s : State} {S : Fin 64 → Fin 32 → Prop} {e : FrameBuffer × Bool}
    (h : exec i s = .next ((s.setFb e.1).setFlag e.2)) (he : Inverts S (s.fb, false) e) :
    ∃ t, exec i s = .next t ∧ t.pc = s.pc ∧
      (∀ px py, S px py → FrameBuffer.pixel t.fb px py = !FrameBuffer.pixel s.fb px py) ∧
      (∀ px py, ¬ S px py → FrameBuffer.pixel t.fb px py = FrameBuffer.pixel s.fb px py) ∧
      (t.reg 15 = 0 ∨ t.reg 15 = 1) ∧
      (t.reg 15 = 1 ↔ ∃ px py, FrameBuffer.pixel s.fb px py = true ∧ S px py) ∧
      (∀ r, r ≠ 15 → t.reg r = s.reg r) ∧ SameBut [.regs, .screen] s t := by
  have hflag : ((s.setFb e.1).setFlag e.2).reg 15 = flagByte e.2 := by rw [State.reg_setFlag, flagReg_eq, if_pos rfl]
  refine ⟨_, h, rfl, he.pixel_of_mem, he.pixel_of_not_mem, ?_, ?_, fun r hr => ?_,
    ((SameBut.refl _ s).setFb (by decide)).setReg (by decide)⟩
  · rw [hflag]
    exact flagByte_eq_zero_or_one e.2
  · rw [hflag, flagByte_eq_one_iff, he.collides_iff]
    exact or_iff_right Bool.false_ne_true
  · rw [State.reg_setFlag, flagReg_eq, if_neg hr.symm, State.reg_setFb]

/-- Settles O51: with its rows in Memory (`exec_drw_of_fits`) the draw inverts the pixels under the sprite
(`draw_readBytes_inverts`); with a row past 0xFFF the check fails. -/
theorem drwInvertsThePixelsUnderTheSprite : Obligations.DrwInvertsThePixelsUnderTheSprite := by
  intro x y n
  have hword : wXyn 0xD000 x y n = encode (.drw x y n) := wXyn_eq_wordXyn 0xD x y n
  refine ⟨decodeWord_of_eq_encode hword, fun s h => ?_, fun s hrows hout => ?_⟩
  · exact exec_drawn (exec_drw_of_fits h) (draw_readBytes_inverts _ _ _ _ _ _)
  · rw [hword]
    exact exec_faultedBy ⟨rfl, hrows, hout⟩

/-- A row that is not zero, by its place. -/
theorem exists_getD_ne_zero_iff (rows : List Byte) :
    (∃ r < rows.length, rows.getD r 0 ≠ 0) ↔ ∃ row ∈ rows, row ≠ 0 := by
  constructor
  · rintro ⟨r, hr, hne⟩
    rw [List.getD_eq_getElem _ _ hr] at hne
    exact ⟨_, List.getElem_mem hr, hne⟩
  · rintro ⟨row, hmem, hne⟩
    obtain ⟨r, hr, rfl⟩ := List.getElem_of_mem hmem
    exact ⟨r, hr, by rwa [List.getD_eq_getElem _ _ hr]⟩

/-- Settles O52: both draws invert the same pixels (`draw_inverts`). Inverted twice a pixel is as it was; on a cleared
screen the first draw finds no pixel on, and the second finds on exactly the pixels under the sprite. -/
theorem drawingTwiceRestores : Obligations.DrawingTwiceRestores := by
  refine ⟨fun f x y rows hlen => ?_, fun x y rows hlen => ?_, fun _ _ _ => rfl⟩
  · have h₁ := draw_inverts f x y rows (by omega)
    have h₂ := draw_inverts (draw f x y rows).1 x y rows (by omega)
    refine FrameBuffer.ext_pixel fun px py => ?_
    by_cases hin : SpriteOn x y rows.length (fun k => rows.getD k 0) px py
    · rw [h₂.pixel_of_mem px py hin, h₁.pixel_of_mem px py hin, Bool.not_not]
    · rw [h₂.pixel_of_not_mem px py hin, h₁.pixel_of_not_mem px py hin]
  · have h₁ := draw_inverts clearFb x y rows (by omega)
    have h₂ := draw_inverts (draw clearFb x y rows).1 x y rows (by omega)
    have hon (px py) (hin : SpriteOn x y rows.length (fun k => rows.getD k 0) px py) :
        FrameBuffer.pixel (draw clearFb x y rows).1 px py = true := by
      rw [h₁.pixel_of_mem px py hin, pixel_clearFb, Bool.not_false]
    constructor
    · rw [← Bool.not_eq_true, h₁.collides_iff]
      simp
    · calc (draw (draw clearFb x y rows).1 x y rows).2 = true
          ↔ ∃ px py, FrameBuffer.pixel (draw clearFb x y rows).1 px py = true ∧
              SpriteOn x y rows.length (fun k => rows.getD k 0) px py :=
            h₂.collides_iff.trans (or_iff_right Bool.false_ne_true)
        _ ↔ ∃ px py, SpriteOn x y rows.length (fun k => rows.getD k 0) px py :=
            exists₂_congr fun px py => and_iff_right_of_imp (hon px py)
        _ ↔ ∃ row ∈ rows, row ≠ 0 := exists_spriteOn_iff.trans (exists_getD_ne_zero_iff rows)

/-- Settles O50: the word is exact because a recognized word is the encoding of its instruction; the clear changes the
screen alone. -/
theorem clsTurnsEveryPixelOff : Obligations.ClsTurnsEveryPixelOff :=
  ⟨fun w => ⟨fun h => (decodedWordEncodesBack w .cls h).symm, decodeWord_of_eq_encode (i := .cls)⟩, fun s =>
    ⟨_, rfl, rfl, pixel_clearFb, (SameBut.refl _ s).setFb (by decide)⟩⟩

/-! The host's read ports -/

/-- `SOUND` at an instant not before the last step (R149). -/
theorem sound_of_le {s : State} {t : Nat} (h : s.env.clock ≤ t) : sound s t = .next (eff s.st t) := by
  obtain ⟨hlt, -⟩ | ⟨-, hs⟩ := sound_cases s t
  · exact absurd hlt (Nat.not_lt.2 h)
  · exact hs

/-- `SOUND` at an instant before the last step. -/
theorem sound_of_lt {s : State} {t : Nat} (h : t < s.env.clock) : sound s t = .refused .soundBeforeLastStep := by
  obtain ⟨-, hs⟩ | ⟨hle, -⟩ := sound_cases s t
  · exact hs
  · exact absurd h (Nat.not_lt.2 hle)

/-- Settles O59: `getPoint` by its bounds check, `SOUND` by its instant check, its value by `toNat_eff`. -/
theorem hostReadPorts : Obligations.HostReadPorts := by
  refine ⟨fun s x y hx hy => dif_pos ⟨hx, hy⟩, fun s x y hout => dif_neg ?_, fun s t hclock _ => ?_,
    fun s t => sound_of_lt⟩
  · rintro ⟨hx, hy⟩
    omega
  · exact ⟨_, sound_of_le hclock, toNat_eff s.st t⟩

end Sys2Proof.Claims
end

section
/-! PROOFS of the statements of spec/45_keys_timers.md. First the effective value over time, then what an answer is that
skips on a condition, and each instruction. -/

namespace Sys2Proof.Claims

open Sys2Proof.Machine

/-! The effective value over time (R146, R148) -/

/-- The effective value is 0 from the instant on at which the whole set-value has been counted down. -/
theorem eff_eq_zero_iff (l : TimerLatch) (now : Nat) : eff l now = 0 ↔ l.value.toNat * 16 ≤ now - l.instant := by
  rw [← BitVec.toNat_inj, toNat_eff]
  exact Nat.sub_eq_zero_iff_le.trans (Nat.le_div_iff_mul_le (by decide))

/-- The effective value never grows. -/
theorem antitone_toNat_eff (l : TimerLatch) : Antitone fun now => (eff l now).toNat := by
  intro now later h
  simp only [toNat_eff]
  exact Nat.sub_le_sub_left (Nat.div_le_div_right (Nat.sub_le_sub_right h _)) _

/-- The formula of R146, in integers, at an instant not before the one the timer was set at. -/
theorem toNat_eff_eq_max {l : TimerLatch} {now : Nat} (h : l.instant ≤ now) :
    ((eff l now).toNat : Int) = max 0 ((l.value.toNat : Int) - (now - l.instant : Int) / 16) := by
  rw [toNat_eff]
  omega

/-- Settles O57: when the value is 0 is `eff_eq_zero_iff`, that it never grows is `antitone_toNat_eff`, and after k full
periods of 16 ms the quotient of R146 is k. -/
theorem timerDecay : Obligations.TimerDecay := by
  refine fun v t0 => ⟨?_, fun now _ h => (eff_eq_zero_iff _ _).2 h, fun k e hk hlt _ => ?_,
    fun _ _ _ h => antitone_toNat_eff _ h, fun hv now => ?_⟩
  · refine BitVec.eq_of_toNat_eq ?_
    rw [toNat_eff, Nat.sub_self, Nat.zero_div, Nat.sub_zero]
  · have hquotient : e / 16 = k := by omega
    rw [toNat_eff, Nat.add_sub_cancel_left, hquotient]
  · subst hv
    exact (eff_eq_zero_iff _ _).2 (Nat.zero_le _)

/-! The key skips and the key read -/

/-- A skip on a condition moves `PC` alone (R90): by 2 when the condition holds, else not at all. -/
theorem exec_skipIf {i : Instr} {s : State} {c : Bool} (h : exec i s = .next (s.skipIf c)) :
    ∃ t, exec i s = .next t ∧ SameBut [] s t ∧ (t.pc = s.pc + 2 ↔ c = true) ∧ (t.pc = s.pc ↔ c = false) ∧
      (t.pc = s.pc + 2 ∨ t.pc = s.pc) := by
  refine ⟨_, h, (SameBut.refl _ s).skipIf, ?_⟩
  cases c <;> simp

/-- Settles O53: each skips on the comparison of R140 or on its negation (`exec_skipIf`), and the comparison is
`keyIs_iff`. -/
theorem keySkips : Obligations.KeySkips := by
  refine fun x => ⟨decodeWord_of_eq_encode (wX_eq_wordXkk 0xE x 0x9E),
    decodeWord_of_eq_encode (wX_eq_wordXkk 0xE x 0xA1), fun s => ⟨?_, ?_⟩⟩
  · obtain ⟨t, ht, hframe, hskip, -, hpc⟩ := exec_skipIf (i := .skp x) (s := s) rfl
    exact ⟨t, ht, hframe, hskip.trans (keyIs_iff _ _), hpc⟩
  · obtain ⟨t, ht, hframe, -, hstay, hpc⟩ := exec_skipIf (i := .sknp x) (s := s) rfl
    rw [Bool.not_eq_false', keyIs_iff] at hstay
    exact ⟨t, ht, hframe, hstay, hpc⟩

/-- Fx0A without a key (R142). -/
theorem exec_ldVxK_of_none {s : State} (x : Reg) (h : s.key = none) :
    exec (.ldVxK x) s = .next (s.rewind.setMode .awaitingKey) := by
  obtain ⟨t, ht, ⟨-, rfl⟩ | ⟨k, hk, -⟩⟩ := exec_of_not_fails (.ldVxK x) s fun _ => id
  · exact ht
  · cases h.symm.trans hk

/-- Fx0A with a key (R142). -/
theorem exec_ldVxK_of_some {s : State} (x : Reg) {k : Key} (h : s.key = some k) :
    exec (.ldVxK x) s = .next ((s.setReg x (k.zeroExtend 8)).setMode .running) := by
  obtain ⟨t, ht, ⟨hk, -⟩ | ⟨k', hk, rfl⟩⟩ := exec_of_not_fails (.ldVxK x) s fun _ => id
  · cases h.symm.trans hk
  · obtain rfl : k = k' := Option.some.inj (h.symm.trans hk)
    exact ht

/-- Settles O54: without a key `PC` and the mode alone are written (`exec_ldVxK_of_none`), with one Vx and the mode
(`exec_ldVxK_of_some`), and the zero-extended key keeps its value. -/
theorem keyReadWaitsForAKey : Obligations.KeyReadWaitsForAKey := by
  refine fun x => ⟨decodeWord_of_eq_encode (wX_eq_wordXkk 0xF x 0x0A), fun s h => ?_, fun s k h => ?_⟩
  · exact ⟨_, exec_ldVxK_of_none x h, rfl, rfl, (SameBut.refl _ s).jump.setMode (by decide)⟩
  · refine ⟨_, exec_ldVxK_of_some x h, rfl, rfl, ?_, fun r hr => ?_,
      ((SameBut.refl _ s).setReg (by decide)).setMode (by decide)⟩
    · rw [State.reg_setMode, State.reg_setReg, if_pos rfl, toNat_extKey]
    · rw [State.reg_setMode, State.reg_setReg, if_neg hr.symm]

/-! The timers -/

/-- Settles O55: one register is written (`exec_setReg`), with the value of R146 (`toNat_eff_eq_max`). -/
theorem delayTimerIsRead : Obligations.DelayTimerIsRead := by
  refine fun x => ⟨decodeWord_of_eq_encode (wX_eq_wordXkk 0xF x 0x07), fun s => ?_⟩
  obtain ⟨t, ht, hpc, hvalue, hframe⟩ := exec_setReg (i := .ldVxDt x) (s := s) rfl
  exact ⟨t, ht, hpc, fun h => hvalue ▸ toNat_eff_eq_max h, hframe⟩

/-- Settles O56: each writes its own latch alone, and the latch set holds Vx and the step's `now` (R147). -/
theorem timersAreSet : Obligations.TimersAreSet := fun x =>
  ⟨decodeWord_of_eq_encode (wX_eq_wordXkk 0xF x 0x15), decodeWord_of_eq_encode (wX_eq_wordXkk 0xF x 0x18), fun s =>
    ⟨⟨_, rfl, rfl, rfl, rfl, (SameBut.refl _ s).setDelay (by decide)⟩,
      ⟨_, rfl, rfl, rfl, rfl, (SameBut.refl _ s).setSound (by decide)⟩⟩⟩

end Sys2Proof.Claims
end

section
/-! PROOFS of the statements of spec/60_exceptions.md. First the table of R151 against the checks of the instructions;
then the report of an unrecognized word, and what a step latches. -/

namespace Sys2Proof.Claims

open Sys2Proof.Machine

/-! What is raised (R151, R161) -/

section Raises

variable {i : Instr} {s : State} {c : Cause}

/-- The table's conditions are the checks the instructions make, on the state the fetch leaves. -/
theorem raises_eq_some : raises i s = some c ↔ FailsWith i s.advance c := by
  have hrow {p : Prop} [Decidable p] {d : Cause} : (if p then some d else none) = some c ↔ c = d ∧ p := by
    rw [Option.ite_none_right_eq_some, Option.some.injEq, and_comm, eq_comm]
  cases i
  case ret | call | addI | ldB | stRegs | ldRegs | drw => exact hrow
  all_goals exact iff_of_false (Option.some_ne_none c).symm id

/-- Where the table names no cause, no check fails. -/
theorem not_failsWith_of_raises_eq_none (h : raises i s = none) (c : Cause) : ¬ FailsWith i s.advance c :=
  fun hfails => Option.some_ne_none c ((raises_eq_some.2 hfails).symm.trans h)

end Raises

/-! The report (R156) -/

theorem SameBut.diagnose {L : List Part} {s t : State} {a w : Word} (hL : .diag ∈ L) (h : SameBut L s t) :
    SameBut L s (t.diagnose a w) := by
  intro p hp
  cases p with
  | diag => exact absurd hL hp
  | _ => exact h _ hp

/-- Settles O11: the step is the advance and the report (`step_of_unrecognized`), which write `PC` and `DIAG`. -/
theorem unrecognizedWordIsReported : Obligations.UnrecognizedWordIsReported := fun s _ hf hw hd =>
  ⟨_, step_of_unrecognized hf hw hd, rfl, rfl, hf,
    ((SameBut.refl _ s).jump.diagnose (by decide)).endStep (by decide)⟩

/-! The faults -/

/-- The step at a recognized word latches what the table of R151 names, with `PC` and the word, and reports nothing: the
word recorded is the fetched one, because it is the encoding of its instruction (`decodedWordEncodesBack`). -/
theorem step_latches_raises {s : State} {w : Word} {i : Instr} (hf : s.fault = none) (hw : fetch s = some w)
    (hd : decodeWord w = .ok i) : ∃ t, step s = .next t ∧ t.diag = s.diag ∧
      t.fault = (raises i s).map fun c => { cause := c, addr := s.pc, word := some w } := by
  cases hr : raises i s with
  | none =>
    obtain ⟨t, ht, he⟩ := exec_of_not_fails i s.advance (not_failsWith_of_raises_eq_none hr)
    have hdiag : t.diag = s.advance.diag := effect_diag he
    exact ⟨_, step_of_exec hf hw hd ht, hdiag, (effect_stores he).fault.trans hf⟩
  | some c =>
    refine ⟨_, step_of_exec hf hw hd (exec_of_fails i s.advance c (raises_eq_some.1 hr)), rfl, ?_⟩
    rw [State.fault_endStep, State.fault_latchFault, State.pc_advance, BitVec.add_sub_cancel,
      decodedWordEncodesBack w i hd, Option.map_some]

/-- Settles O15: a fetch that answers nothing, which is exactly above 0xFFE (`fetch_eq_none`), latches its fault; a
recognized word latches what the table names (`step_latches_raises`); an unrecognized one is reported
(`unrecognizedWordIsReported`). -/
theorem faultsAreRaisedExactly : Obligations.FaultsAreRaisedExactly := by
  refine ⟨⟨rfl, rfl, rfl, rfl, rfl⟩, fun s hf hw => ⟨_, step_of_no_fetch hf hw, rfl⟩, fetch_eq_none,
    fun s w i => step_latches_raises, fun s w hf hw hd => ?_⟩
  obtain ⟨t, ht, -, hdiag, hfault, -⟩ := unrecognizedWordIsReported s w hf hw hd
  exact ⟨t, ht, hfault, hdiag⟩

end Sys2Proof.Claims
end

section
/-! PROOFS of the statements of spec/70_reset_and_hazards.md, and of part 2 of spec/93_implementation_defined.md. First
Memory after reset and `Load`, outcome by outcome; then what the named alternatives would do. -/

namespace Sys2Proof.Machine

/-! Memory after reset -/

theorem length_glyphs : Config.glyphs.length = 80 := rfl

/-- The glyph table is what the first 80 addresses hold when nothing has been written there (R18). -/
theorem Memory.unlisted_of_lt {a : Nat} (h : a < 80) : some (Memory.unlisted a) = Config.glyphs[a]? := by
  have hlt : a < Config.glyphs.length := h.trans_eq length_glyphs.symm
  rw [Memory.unlisted, Memory.resetByte?, List.getElem?_eq_getElem hlt, Option.getD_some]

/-- Past the glyph table it is the free byte (R17). -/
theorem Memory.unlisted_of_le {a : Nat} (h : 80 ≤ a) : Memory.unlisted a = Config.memInit a := by
  have hle : Config.glyphs.length ≤ a := length_glyphs.trans_le h
  rw [Memory.unlisted, Memory.resetByte?, List.getElem?_eq_none hle, Option.getD_none]

/-! `Load`, outcome by outcome -/

/-- The k-th byte of a run is read back at its place (R43). -/
theorem Memory.read_writeBytes_add (m : Memory) (a : Nat) {bs : List Byte} {k : Nat} (h : k < bs.length) :
    Memory.read (Memory.writeBytes m a bs) (a + k) = bs[k] := by
  have hin : a ≤ a + k ∧ a + k < a + bs.length := by omega
  rw [Memory.read_writeBytes, dif_pos hin]
  simp only [Nat.add_sub_cancel_left]

section Load

variable {s t : State} {image : List Byte}

/-- `Load` answers a state exactly when it is open and the image fits, and the state is then the image placed and the
record set (R186). -/
theorem load_eq_next_iff : load image s = .next t ↔ s.env.loaded = false ∧ s.env.tick = 0 ∧ image.length ≤ 3584 ∧
    (s.setMem (s.mem.writeBytes 0x200 image)).markLoaded = t := by
  obtain ⟨hl, h⟩ | ⟨-, ht, h⟩ | ⟨-, -, hlen, h⟩ | ⟨hl, ht, hlen, h⟩ := load_cases image s
  · simp [h, hl]
  · simp [h, ht]
  · have hlong : ¬ image.length ≤ 3584 := Nat.not_le.2 hlen
    simp [h, hlong]
  · have hfits : image.length ≤ 3584 := hlen
    simp [h, hl, ht, hfits, Config.progBase]

theorem load_of_loaded (hl : s.env.loaded = true) : load image s = .refused .loadedAlready := if_pos hl

theorem load_of_stepped (hl : s.env.loaded = false) (ht : s.env.tick ≠ 0) :
    load image s = .refused .loadAfterFirstStep := by
  rw [load, hl, if_neg Bool.false_ne_true, if_pos ht]

theorem load_of_tooLarge (hl : s.env.loaded = false) (ht : s.env.tick = 0) (hlen : 3584 < image.length) :
    load image s = .fault .imageTooLarge := by
  rw [load, hl, if_neg Bool.false_ne_true, if_neg (not_not_intro ht)]
  exact if_pos hlen

end Load

/-! The named alternatives -/

/-- The two readings of SHIFT_ALIAS agree unless x names VF: the flag then is written to another register. -/
theorem State.setFlagThenResult_eq_of_ne {x : Reg} (hx : x ≠ Config.flagReg) (m m' : ShiftAlias) (s : State)
    (flag : Byte → Bool) (op : Byte → Byte) : s.setFlagThenResult m x flag op = s.setFlagThenResult m' x flag op := by
  have hkept (f : Bool) : (s.setFlag f).reg x = s.reg x := by rw [State.reg_setFlag, if_neg hx.symm]
  cases m <;> cases m' <;> simp only [State.setFlagThenResult, hkept]

/-- With `sequential` a shift of VF works on the flag it has just written. -/
theorem State.reg_setFlagThenResult_sequential (s : State) (flag : Byte → Bool) (op : Byte → Byte) :
    (s.setFlagThenResult .sequential Config.flagReg flag op).reg Config.flagReg =
      op (flagByte (flag (s.reg Config.flagReg))) := by
  rw [State.reg_setFlagThenResult, if_pos rfl, if_pos ⟨rfl, rfl⟩]

/-- Bit 7 of a byte is set from 128 up. -/
theorem highBit_eq_decide (a : Byte) : highBit a = decide (128 ≤ a.toNat) :=
  BitVec.msb_eq_decide a

section AddIndex

variable {i : Word} {b : Byte}

/-- Every reading of FX1E_MODE answers the exact sum up to 0xFFF. -/
theorem addIndex_of_le (m : Fx1eMode) (h : i.toNat + b.toNat ≤ 0xFFF) :
    addIndex m i b = some (BitVec.ofNat 16 (i.toNat + b.toNat)) := if_pos h

theorem addIndex_wrap12_of_lt (h : 0xFFF < i.toNat + b.toNat) :
    addIndex .wrap12 i b = some (BitVec.ofNat 16 ((i.toNat + b.toNat) % 4096)) := if_neg (Nat.not_le.2 h)

theorem addIndex_keep16_of_lt (h : 0xFFF < i.toNat + b.toNat) :
    addIndex .keep16 i b = some (BitVec.ofNat 16 (i.toNat + b.toNat)) := if_neg (Nat.not_le.2 h)

end AddIndex

end Sys2Proof.Machine

namespace Sys2Proof.Claims

open Sys2Proof.Machine

/-! Reset -/

/-- Settles O22: every vector is a replicated 0, the screen is the cleared one (`pixel_clearFb`), and Memory lists nothing
(`Memory.unlisted_of_lt`, `Memory.unlisted_of_le`). -/
theorem resetState : Obligations.ResetState :=
  ⟨fun r => Vector.getElem_replicate r.isLt, rfl, rfl, rfl, fun k => Vector.getElem_replicate k.isLt,
    fun _ => Memory.unlisted_of_lt, fun _ => Memory.unlisted_of_le, rfl, pixel_clearFb, rfl, rfl, rfl, rfl⟩

/-- Settles O25: Memory lists nothing, the numbers are at their start, and the stack, the latch and the log are empty and
the mode is Running, so that the other clauses have nothing to speak of. -/
theorem resetMeetsTheInvariant : Obligations.ResetMeetsTheInvariant where
  memory := Memory.wf_reset
  pcRange := by decide
  iRange := by decide
  stackRange := fun k hk => absurd hk (Nat.not_lt_zero k)
  delaySet := le_rfl
  soundSet := le_rfl
  faultPrecise := fun _ hr => nomatch hr
  diagnostics := fun _ he => absurd he List.not_mem_nil
  awaiting := fun hm => nomatch hm

/-! Load -/

theorem SameBut.markLoaded {L : List Part} {s t : State} (hL : .env ∈ L) (h : SameBut L s t) :
    SameBut L s t.markLoaded := by
  intro p hp
  cases p with
  | env => exact absurd hL hp
  | _ => exact h _ hp

/-- Settles O23. An open `Load` of an image that fits answers the image placed and the record set (`load_eq_next_iff`),
and the record closes it; each other call is refused or faults by the first of the checks that fails. -/
theorem loadPlacesTheImage : Obligations.LoadPlacesTheImage := by
  refine ⟨fun s image hl ht hlen => ?_, fun s t image h => ?_, fun _ _ => load_of_loaded, fun _ _ => load_of_stepped,
    fun _ _ => load_of_tooLarge, rfl, rfl⟩
  · refine ⟨_, load_eq_next_iff.2 ⟨hl, ht, hlen, rfl⟩, rfl, fun k hk => ?_, fun a ha => ?_,
      ((SameBut.refl _ s).setMem (by decide)).markLoaded (by decide), rfl, fun _ => load_of_loaded rfl⟩
    · exact Memory.read_writeBytes_add s.mem 0x200 hk
    · exact Memory.read_writeBytes_of_not_mem s.mem 0x200 image a ha
  · obtain ⟨hl, ht, hlen, -⟩ := load_eq_next_iff.1 h
    exact ⟨hlen, hl, ht⟩

/-! The named alternatives -/

/-- Settles O42. Away from VF the shifts agree (`State.setFlagThenResult_eq_of_ne`), and at VF `sequential` shifts the flag
it has written (`State.reg_setFlagThenResult_sequential`). Up to 0xFFF every reading of Fx1E is the exact sum
(`addIndex_of_le`); past it one faults, one wraps, one keeps the sum, which a word always holds. -/
theorem namedAlternativesDifferOnlyWhereSaid : Obligations.NamedAlternativesDifferOnlyWhereSaid := by
  refine ⟨fun s x f op hx => s.setFlagThenResult_eq_of_ne hx _ _ f op, fun s => ⟨?_, ?_⟩, fun m i b h => ?_,
    fun i b h => ⟨(addIndex_fault_none i b).2 h, ?_, ?_⟩⟩
  · calc (s.setFlagThenResult .sequential 15 lowBit fun b => b >>> 1).reg 15
      _ = flagByte (lowBit (s.reg 15)) >>> 1 := s.reg_setFlagThenResult_sequential _ _
      _ = 0 := by cases lowBit (s.reg 15) <;> rfl
  · calc (s.setFlagThenResult .sequential 15 highBit fun b => b <<< 1).reg 15
      _ = flagByte (highBit (s.reg 15)) <<< 1 := s.reg_setFlagThenResult_sequential _ _
      _ = if 128 ≤ (s.reg 15).toNat then 2 else 0 := by
        rw [highBit_eq_decide, flagByte_decide]
        split <;> rfl
  · refine ⟨_, addIndex_of_le m h, ?_⟩
    rw [BitVec.toNat_ofNat, Nat.mod_eq_of_lt (by omega)]
  · refine ⟨_, addIndex_wrap12_of_lt h, ?_⟩
    rw [BitVec.toNat_ofNat, Nat.mod_eq_of_lt (by omega)]
  · exact ⟨_, addIndex_keep16_of_lt h, BitVec.toNat_ofNat _ _⟩

end Sys2Proof.Claims
end
